-- ==== Sys2Proof/Word.lean ====
section
/-! DEFINITION. The words of the block: a byte of payload, the 124-bit frame word (30_encoding.md R62), and the
128-bit command word (R60).  Every quantity is unsigned and bit 0 is the least significant (00_scope.md R8); the
spec's slice `v[hi:lo]` is `v.extractLsb hi lo` and its `a ++ b` is Lean's own append of bit vectors. -/

namespace Sys2Proof

/-- One byte of payload. -/
abbrev Byte := BitVec 8

/-- A frame word (30_encoding.md R62), a rendering word (R70) or a data beat (R73): all 124 bits wide (`FRAME_W`). -/
abbrev FrameWord := BitVec 124

/-- A command word (30_encoding.md R60), 128 bits wide (`CMD_W`). -/
abbrev CommandWord := BitVec 128

end Sys2Proof
end

