-- ==== Sys2Proof/Config.lean ====
section
/-! DEFINITION. The parameters of the block (00_scope.md R7) and the one parameter the spec leaves OPEN. -/

namespace Sys2Proof

/-- What is chosen when a block is built (00_scope.md R7, 10_state.md R31, 92_eei_decisions.md D20). -/
structure Config where
  /-- `CAP`, the queue's capacity in frames; any `CAP >= 1` is admissible -/
  cap : Nat
  deriving DecidableEq, Repr

/-- This hardware: `CAP` = 100 (00_scope.md R7, 90_conflicts.md C10). -/
def Config.hardware : Config := { cap := 100 }

/-- `CNT_W`, the width of `count`: `ceil(log2(CAP+1))`, the number of binary digits of `CAP` (00_scope.md R7). -/
def Config.cntW (cfg : Config) : Nat := Nat.log2 cfg.cap + 1

/-- `STD_W`, the width in bits of a Standard identifier (00_scope.md R7). -/
def Config.stdW : Nat := 11

/-- `EXT_W`, the width in bits of an Extended identifier (00_scope.md R7). -/
def Config.extW : Nat := 29

/-- `MAX_DLC`, the largest data length (00_scope.md R7). -/
def Config.maxDlc : Nat := 8

/-- `RENDER_TEXT` (00_scope.md R7, 40_framecodec.md R100, 92_eei_decisions.md D16): the host-side function from a
rendering word to text.  OPEN in the spec, so it has no body here: no proof can see a value of it. -/
opaque Config.renderText : FrameWord → String

end Sys2Proof
end

