-- ==== Sys2Proof/Frame.lean ====
section
/-! DEFINITION. The values of 10_state.md section 3 as types: the identifier's kind, the Identifier and the Frame.
Their packed forms are in Sys2Proof/Machine/Operands.lean. -/

namespace Sys2Proof

/-- The identifier's tag, the `ide` flag (10_state.md R28). -/
inductive IdKind where
  /-- an 11-bit Standard identifier -/
  | standard
  /-- a 29-bit Extended identifier -/
  | extended
  deriving DecidableEq, Repr

/-- An Identifier: "a sum type, not a union of overlapping storage" (10_state.md R28). -/
inductive Identifier where
  /-- `Standard (v : 0 .. 2^11 - 1)` -/
  | standard (v : BitVec 11)
  /-- `Extended (v : 0 .. 2^29 - 1)` -/
  | extended (v : BitVec 29)
  deriving DecidableEq, Repr

/-- A Frame: the record of eight fields of 10_state.md R27, in the spec's order.  `dlc <= 8` is part of the type
(R29, clause 1) and the identifier fits its variant by construction (clause 3). -/
structure Frame where
  /-- `start_of_frame` -/
  sof : BitVec 1
  /-- `identifier` -/
  identifier : Identifier
  /-- `remote_request` -/
  rtr : BitVec 1
  /-- `data_length`, 0 to 8 -/
  dlc : Fin 9
  /-- `payload`, `data[0]` first -/
  data : Vector Byte 8
  /-- `crc` -/
  crc : BitVec 15
  /-- `ack` -/
  ack : BitVec 2
  /-- `end_of_frame` -/
  eof : BitVec 7
  deriving DecidableEq, Repr

end Sys2Proof
end

