-- ==== Sys2Proof/Assembly.lean ====
section
/-! DEFINITION. The assembler notation of 30_encoding.md R81 as syntax: one line is one command word.  A host name
`%x` is a convenience of the notation and no state of the block, so a line here carries the 124-bit literal. -/

namespace Sys2Proof

/-- A line of the notation (30_encoding.md R81). -/
inductive AsmLine where
  /-- `BUILD.S id, len, [b0 b1 ...]` and `BUILD.X ...`: `id` and `len` are plain numbers and the payload is a
  sequence of any size (R72) -/
  | build (kind : IdKind) (id len : Nat) (payload : List Byte)
  /-- `RENDER <frame>` -/
  | render (frame : FrameWord)
  /-- `CREATE` -/
  | create
  /-- `ENQUEUE <frame>` -/
  | enqueue (frame : FrameWord)
  /-- `DRAIN` -/
  | drain
  /-- `.word <128-bit literal>`: any command word -/
  | word (c : CommandWord)
  deriving DecidableEq, Repr

end Sys2Proof
end

