-- ==== Sys2Proof/Syntax.lean ====
section
/-! DEFINITION. The five commands (30_encoding.md R78), one constructor per row of spec/opcode_table.json, with the
operands of their formats (R61, R71). -/

namespace Sys2Proof

/-- A command, decoded.  Every term is the meaning of exactly one command word: the widths of the operands are the
widths of the fields of 30_encoding.md R61, and the reserved bits, which must be zero, are no part of it. -/
inductive Instr where
  /-- BUILD (format B): `ext`, `id_in`, `len_in`, `pay_count`, `pay_in` -/
  | build (ext : IdKind) (idIn : BitVec 32) (lenIn : BitVec 8) (payCount : BitVec 4) (payIn : BitVec 64)
  /-- RENDER (format F): any 124 bits may be presented -/
  | render (frame : FrameWord)
  /-- CREATE (format N) -/
  | create
  /-- ENQUEUE (format F): any 124 bits may be presented -/
  | enqueue (frame : FrameWord)
  /-- DRAIN (format N) -/
  | drain
  deriving DecidableEq, Repr

end Sys2Proof
end

