-- ==== Sys2Proof/WellFormed.lean ====
section
/-! DEFINITION. Well-formedness of syntax.  Every term of `Instr` is well-formed: its operands have the widths of
their fields and no combination of them is reserved (30_encoding.md R71, R80), so there is nothing to check on it.
What can be ill-formed is a line of the assembler notation, whose numbers "must fit `id_in` (32 bits) and `len_in`
(8 bits)" (R81).  (Whether the 124 bits of a frame operand spell a Frame is no matter of syntax: a malformed operand
is a legal command, answered with status 5; see `FrameWF` in Sys2Proof/Machine/Operands.lean.) -/

namespace Sys2Proof

/-- `<id>` fits `id_in` (30_encoding.md R81). -/
def AsmLine.idFits : AsmLine → Bool
  | .build _ id _ _ => decide (id < 2 ^ 32)
  | .render _ => true
  | .create => true
  | .enqueue _ => true
  | .drain => true
  | .word _ => true

/-- `<len>` fits `len_in` (30_encoding.md R81). -/
def AsmLine.lenFits : AsmLine → Bool
  | .build _ _ len _ => decide (len < 2 ^ 8)
  | .render _ => true
  | .create => true
  | .enqueue _ => true
  | .drain => true
  | .word _ => true

/-- A line that encodes a command word. -/
def AsmLine.wellFormed (l : AsmLine) : Bool := l.idFits && l.lenFits

end Sys2Proof
end

