-- ==== Sys2Proof/Decode.lean ====
section
/-! DEFINITION. The decoder, total on any 128 bits and refusing by name (30_encoding.md R60, R61, R71, R78, R79), the
encoder written from the same tables, the opcode table itself, and the assembler of R72 and R81. -/

namespace Sys2Proof

/-- Why a word is no command (30_encoding.md R79). -/
inductive Illegal where
  /-- clause 1: the opcode is 0 or is 6 to 15 -/
  | opcode (op : BitVec 4)
  /-- clause 2: BUILD with a reserved bit of `[14:0]` set -/
  | buildReserved
  /-- clause 3: CREATE with a bit of `[123:0]` set -/
  | createReserved
  /-- clause 3: DRAIN with a bit of `[123:0]` set -/
  | drainReserved
  deriving DecidableEq, Repr

/-- The tag bit of a kind: 0 Standard, 1 Extended (30_encoding.md R64). -/
def IdKind.tag : IdKind → BitVec 1
  | .standard => 0#1
  | .extended => 1#1

/-- The kind a tag bit selects (30_encoding.md R61, R64). -/
def IdKind.ofTag (b : BitVec 1) : IdKind := if b = 1#1 then .extended else .standard

/-- Bits `[127:124]` (30_encoding.md R60). -/
def opcodeOf (c : CommandWord) : BitVec 4 := c.extractLsb 127 124

/-- The decoder (30_encoding.md R60, R61, R78, R79). -/
def decode (c : CommandWord) : Except Illegal Instr :=
  if opcodeOf c = 1#4 then
    if c.extractLsb 14 0 = 0#15 then
      .ok (.build (IdKind.ofTag (c.extractLsb 123 123)) (c.extractLsb 122 91) (c.extractLsb 90 83)
        (c.extractLsb 82 79) (c.extractLsb 78 15))
    else .error .buildReserved
  else if opcodeOf c = 2#4 then .ok (.render (c.extractLsb 123 0))
  else if opcodeOf c = 3#4 then
    if c.extractLsb 123 0 = 0#124 then .ok .create else .error .createReserved
  else if opcodeOf c = 4#4 then .ok (.enqueue (c.extractLsb 123 0))
  else if opcodeOf c = 5#4 then
    if c.extractLsb 123 0 = 0#124 then .ok .drain else .error .drainReserved
  else .error (.opcode (opcodeOf c))

/-- The encoder: the one word of each command (40_framecodec.md R90, R97; 41_busqueue.md R112, R114, R117). -/
def encode : Instr → CommandWord
  | .build ext idIn lenIn payCount payIn => 1#4 ++ ext.tag ++ idIn ++ lenIn ++ payCount ++ payIn ++ 0#15
  | .render frame => 2#4 ++ frame
  | .create => 3#4 ++ 0#124
  | .enqueue frame => 4#4 ++ frame
  | .drain => 5#4 ++ 0#124

/-- The mnemonic of a command's row (30_encoding.md R78). -/
def Instr.mnemonic : Instr → String
  | .build _ _ _ _ _ => "BUILD"
  | .render _ => "RENDER"
  | .create => "CREATE"
  | .enqueue _ => "ENQUEUE"
  | .drain => "DRAIN"

/-- A row of the opcode table: a word `c` selects it when `c & mask == value` (30_encoding.md R78). -/
structure OpcodeRow where
  mnemonic : String
  value : CommandWord
  mask : CommandWord
  deriving DecidableEq, Repr

/-- The complete opcode table (30_encoding.md R78). -/
def opcodeTable : List OpcodeRow :=
  [⟨"BUILD", 0x10000000000000000000000000000000, 0xF0000000000000000000000000007FFF⟩,
   ⟨"RENDER", 0x20000000000000000000000000000000, 0xF0000000000000000000000000000000⟩,
   ⟨"CREATE", 0x30000000000000000000000000000000, 0xFFFFFFFFFFFFFFFFFFFFFFFFFFFFFFFF⟩,
   ⟨"ENQUEUE", 0x40000000000000000000000000000000, 0xF0000000000000000000000000000000⟩,
   ⟨"DRAIN", 0x50000000000000000000000000000000, 0xFFFFFFFFFFFFFFFFFFFFFFFFFFFFFFFF⟩]

/-- The mnemonics of the rows a word selects (30_encoding.md R78). -/
def selectedRows (c : CommandWord) : List String :=
  (opcodeTable.filter (fun r => c &&& r.mask == r.value)).map OpcodeRow.mnemonic

/-- `pay_in` for a payload sequence of any size: byte `k` is `P[k]` where there is one among the first 8, else zero;
byte 0 is the most significant (30_encoding.md R72, 20_memory.md R46). -/
def payloadWord (p : List Byte) : BitVec 64 :=
  p.getD 0 0#8 ++ p.getD 1 0#8 ++ p.getD 2 0#8 ++ p.getD 3 0#8 ++
    p.getD 4 0#8 ++ p.getD 5 0#8 ++ p.getD 6 0#8 ++ p.getD 7 0#8

/-- `pay_count = min(size(P), 15)` (30_encoding.md R72). -/
def payloadCount (p : List Byte) : BitVec 4 := BitVec.ofNat 4 (min p.length 15)

/-- The command word of a line of the notation; an ill-formed line has none (30_encoding.md R72, R81). -/
def assemble (l : AsmLine) : Option CommandWord :=
  if l.wellFormed then
    match l with
    | .build kind id len p =>
      some (encode (.build kind (BitVec.ofNat 32 id) (BitVec.ofNat 8 len) (payloadCount p) (payloadWord p)))
    | .render f => some (encode (.render f))
    | .create => some (encode .create)
    | .enqueue f => some (encode (.enqueue f))
    | .drain => some (encode .drain)
    | .word c => some c
  else none

/-- The command word whose bits are `w`, `nbits` of them given and the others zero.  A command is one whole 128-bit
word on the command port (20_memory.md R44), so there is no byte order to apply. -/
def tableWord (nbits w : Nat) : CommandWord := BitVec.ofNat 128 (w % 2 ^ nbits)

/-- What the decoder reads from an instruction whose bits are `w`, bit 0 the least significant of the word. -/
def decodeTableWord (nbits w : Nat) : Option Instr :=
  match decode (tableWord nbits w) with
  | .ok i => some i
  | .error _ => none

end Sys2Proof
end

