-- ==== Sys2Proof/Machine/Operands.lean ====
section
/-! DEFINITION. The operand forms: the fields of a frame word (30_encoding.md R62), well-formed and built words (R68,
40_framecodec.md R96), `pack` and `unpack` (30_encoding.md R63, R67), the byte and mask operations on a payload field
(00_scope.md R9, 40_framecodec.md R91, R98), and `rend` (R98). -/

namespace Sys2Proof.Machine

/-- `sof`, bit 123 (30_encoding.md R62). -/
def sofField (w : FrameWord) : BitVec 1 := w.extractLsb 123 123

/-- `ide`, bit 122 (30_encoding.md R62). -/
def ideField (w : FrameWord) : BitVec 1 := w.extractLsb 122 122

/-- `id`, bits 121:93 (30_encoding.md R62). -/
def idField (w : FrameWord) : BitVec 29 := w.extractLsb 121 93

/-- `rtr`, bit 92 (30_encoding.md R62). -/
def rtrField (w : FrameWord) : BitVec 1 := w.extractLsb 92 92

/-- `dlc`, bits 91:88 (30_encoding.md R62). -/
def dlcField (w : FrameWord) : BitVec 4 := w.extractLsb 91 88

/-- `data`, bits 87:24 (30_encoding.md R62). -/
def dataField (w : FrameWord) : BitVec 64 := w.extractLsb 87 24

/-- `crc`, bits 23:9 (30_encoding.md R62). -/
def crcField (w : FrameWord) : BitVec 15 := w.extractLsb 23 9

/-- `ack`, bits 8:7 (30_encoding.md R62). -/
def ackField (w : FrameWord) : BitVec 2 := w.extractLsb 8 7

/-- `eof`, bits 6:0 (30_encoding.md R62). -/
def eofField (w : FrameWord) : BitVec 7 := w.extractLsb 6 0

/-- The nine fields side by side, the first the most significant (30_encoding.md R62). -/
def frameWord (sof ide : BitVec 1) (id : BitVec 29) (rtr : BitVec 1) (dlc : BitVec 4) (data : BitVec 64)
    (crc : BitVec 15) (ack : BitVec 2) (eof : BitVec 7) : FrameWord :=
  sof ++ ide ++ id ++ rtr ++ dlc ++ data ++ crc ++ ack ++ eof

/-- `byte(p, k)` = `p[63-8k : 56-8k]`: byte 0 is the most significant (00_scope.md R9, 20_memory.md R46). -/
def byteAt (p : BitVec 64) (k : Fin 8) : Byte := p.extractLsb' (56 - 8 * k.val) 8

/-- A payload field from its eight bytes, byte 0 first (20_memory.md R46). -/
def joinBytes (d : Fin 8 → Byte) : BitVec 64 :=
  d 0 ++ d 1 ++ d 2 ++ d 3 ++ d 4 ++ d 5 ++ d 6 ++ d 7

/-- The first `n` bytes of a payload field, 0x00 at every byte position from `n` on (40_framecodec.md R91, R98). -/
def keepBytes (n : Nat) (p : BitVec 64) : BitVec 64 :=
  joinBytes (fun k => if k.val < n then byteAt p k else 0#8)

/-- The width of a kind's identifier, 11 or 29 (30_encoding.md R71). -/
def idWidth : IdKind → Nat
  | .standard => Config.stdW
  | .extended => Config.extW

/-- `zext_29(id_in[w-1:0])` (40_framecodec.md R90, R92). -/
def idBits : IdKind → BitVec 32 → BitVec 29
  | .standard, idIn => (idIn.extractLsb 10 0).setWidth 29
  | .extended, idIn => idIn.extractLsb 28 0

/-- `WF(w)`: `dlc` is at most 8, and a Standard identifier has its upper 18 `id` bits clear (30_encoding.md R68). -/
abbrev FrameWF (w : FrameWord) : Prop :=
  (dlcField w).toNat ≤ Config.maxDlc ∧ (ideField w = 1#1 ∨ w.extractLsb 121 104 = 0#18)

/-- `Built(F)` (40_framecodec.md R96). -/
abbrev FrameBuilt (w : FrameWord) : Prop :=
  FrameWF w ∧ sofField w = 0#1 ∧ rtrField w = 0#1 ∧ w.extractLsb 23 0 = 0x00007F#24 ∧
    ∀ k : Fin 8, (dlcField w).toNat ≤ k.val → byteAt (dataField w) k = 0#8

/-- The tag bit of an identifier (30_encoding.md R64). -/
def idTag : Identifier → BitVec 1
  | .standard _ => IdKind.standard.tag
  | .extended _ => IdKind.extended.tag

/-- An identifier's value, right-aligned in the 29-bit field (30_encoding.md R64). -/
def idValue : Identifier → BitVec 29
  | .standard v => v.setWidth 29
  | .extended v => v

/-- `pack` (30_encoding.md R63). -/
def pack (f : Frame) : FrameWord :=
  frameWord f.sof (idTag f.identifier) (idValue f.identifier) f.rtr (BitVec.ofNat 4 f.dlc.val)
    (joinBytes (fun k => f.data[k])) f.crc f.ack f.eof

/-- `unpack`, defined exactly on the well-formed words (30_encoding.md R67). -/
def unpack (w : FrameWord) : Option Frame :=
  if FrameWF w then
    some {
      sof := sofField w
      identifier := if ideField w = 0#1 then .standard (w.extractLsb 103 93) else .extended (w.extractLsb 121 93)
      rtr := rtrField w
      dlc := Fin.ofNat 9 (dlcField w).toNat
      data := Vector.ofFn (byteAt (dataField w))
      crc := crcField w
      ack := ackField w
      eof := eofField w }
  else none

/-- `rend`, the decoding function, total on well-formed words (40_framecodec.md R98, 30_encoding.md R70): the fields as
stored, `rtr` and the bytes from `dlc` on forced to zero. -/
def rend (w : FrameWord) : FrameWord :=
  frameWord (sofField w) (ideField w) (idField w) 0#1 (dlcField w)
    (keepBytes (dlcField w).toNat (dataField w)) (crcField w) (ackField w) (eofField w)

end Sys2Proof.Machine
end

