-- ==== Sys2Proof/Machine/State.lean ====
section
/-! DEFINITION. The state of the block as plain data (10_state.md R20), what passes on its two ports (30_encoding.md
R73, R75; 00_scope.md R11, R13), the reasons a step can stop, and the state after reset (10_state.md R35). -/

namespace Sys2Proof.Machine

/-- The completion statuses (30_encoding.md R73).  Codes 6 to 14 are never produced and have no name. -/
inductive Status where
  /-- 0: success -/
  | ok
  /-- 1: BUILD, `len_in > 8` (60_exceptions.md R131) -/
  | invalidLength
  /-- 2: BUILD, the identifier does not fit its variant (R132) -/
  | identifierOutOfRange
  /-- 3: BUILD, fewer payload bytes than the length asks for (R133) -/
  | payloadTooShort
  /-- 4: ENQUEUE of a well-formed frame on a full queue (R134) -/
  | busFull
  /-- 5: RENDER or ENQUEUE of 124 bits that spell no Frame (R135) -/
  | malformedFrame
  /-- 15: a word that is no command (R136) -/
  | illegalCommand
  deriving DecidableEq, Repr

/-- A response: a status and the data beats before it (00_scope.md R11, 30_encoding.md R73). -/
structure Response where
  status : Status
  beats : List FrameWord
  deriving DecidableEq, Repr

/-- What the host has got from one command: its whole response, or, where a reset cut the command short, only the
data beats that passed before it and no completion (70_reset_and_hazards.md R152). -/
inductive Delivery where
  | completed (r : Response)
  | abandoned (beats : List FrameWord)
  deriving DecidableEq, Repr

/-- What the host does to the block (70_reset_and_hazards.md R163). -/
inductive HostInput where
  /-- it presents the command word and takes every item of the response -/
  | command (c : CommandWord)
  /-- it asserts `rst` while no command is in progress (R150) -/
  | reset
  /-- it presents the command word, takes at most `passed` data beats and then asserts `rst` before the completion
  has passed (R152) -/
  | resetDuring (c : CommandWord) (passed : Nat)
  deriving DecidableEq, Repr

/-- The slot array (20_memory.md R40): (slot index, 124-bit word) pairs, the indices strictly rising.  The unit of
address and of size is one slot (R42).  A slot that is not listed has no value: its contents after reset are
unspecified (70_reset_and_hazards.md R151). -/
abbrev Memory := List (Nat × FrameWord)

/-- The state.  `count` and `slots` are the whole architectural state (10_state.md R20); `config` is the constant the
block was built with; `hostIn` and `delivered` are the model's own fields for the two ports: what the host will still
present, the next first, and what has passed to the host, the oldest first. -/
structure State where
  /-- the build-time parameter `CAP` (00_scope.md R7, 10_state.md R31): no step writes it.  DESIGN CHOICE: it stands
  in the state (log entry 10) -/
  config : Config
  /-- `count`, an integer from 0 to `CAP` in a register of `CNT_W` bits (10_state.md R20, R24); its bits are `qCount` -/
  count : Nat
  /-- `slot[0 .. CAP-1]` (10_state.md R25) -/
  slots : Memory
  /-- the model's own: the host's inputs still to come -/
  hostIn : List HostInput
  /-- the model's own: the responses so far (00_scope.md R13) -/
  delivered : List Delivery
  deriving DecidableEq, Repr

/-- Why a step stops.  All three are raised only in states outside the invariant of 10_state.md R26, which no run
reaches: the spec calls `MemRead` and `MemWrite` only where they are defined (20_memory.md R42, R45). -/
inductive Fault where
  /-- raised by `memRead` and `memWrite`, so by DRAIN and ENQUEUE when `count > CAP`: the slot does not exist
  (20_memory.md R42).  Safe: the model stops where the spec has no such access. -/
  | slotOutOfRange (i : Nat)
  /-- raised by `memRead`, so by DRAIN when a slot below `count` was never written since reset (20_memory.md R42,
  R45).  Safe: the model stops where the spec has no such access. -/
  | slotUnwritten (i : Nat)
  /-- raised by DRAIN when a slot below `count` holds a word that is not well-formed, on which `rend` is not defined
  (40_framecodec.md R98, 41_busqueue.md R117).  Safe: the model stops where the spec gives no result. -/
  | slotMalformed (i : Nat)
  deriving DecidableEq, Repr

/-- Why an instruction has no meaning. -/
inductive Refusal where
  /-- raised by `exec` for an instruction that has no meaning yet; no arm raises it.  Safe. -/
  | notModelled (mnemonic : String)
  deriving DecidableEq, Repr

/-- The state after reset of a block built with `cfg` (10_state.md R35, 70_reset_and_hazards.md R150): `count` is 0 and
no slot has a value.  DESIGN CHOICE (log entries 1 and 2): nothing presented, nothing delivered, no slot listed. -/
def State.resetOf (cfg : Config) : State := { config := cfg, count := 0, slots := [], hostIn := [], delivered := [] }

/-- The state after reset of this hardware, `CAP` = 100 (00_scope.md R7). -/
def State.reset : State := State.resetOf Config.hardware

end Sys2Proof.Machine
end

