-- ==== Sys2Proof/Machine/Ops.lean ====
section
/-! DEFINITION. The named operations over the slot array (20_memory.md R42), the delivery of a response (30_encoding.md
R73), the one shared way of ending a command with an error, `raise E` (60_exceptions.md R140), and reset (70 R150,
R152).  There is no return from an error, because nothing was entered (60 R141). -/

namespace Sys2Proof.Machine

/-- The word a slot holds, if it has a value. -/
def Memory.lookup (i : Nat) : Memory → Option FrameWord
  | [] => none
  | (j, w) :: rest => if j = i then some w else Memory.lookup i rest

/-- The slot array with slot `i` holding `w`, the indices kept rising. -/
def Memory.insert (i : Nat) (w : FrameWord) : Memory → Memory
  | [] => [(i, w)]
  | (j, v) :: rest =>
    if i < j then (i, w) :: (j, v) :: rest
    else if i = j then (i, w) :: rest
    else (j, v) :: Memory.insert i w rest

/-- The canonical form: slot indices strictly rising and inside the address space (20_memory.md R40).  An unlisted
slot has no value, so no listed entry equals what an unlisted one reads as. -/
abbrev Memory.wf (cfg : Config) (m : Memory) : Prop :=
  (m.map Prod.fst).Pairwise (· < ·) ∧ ∀ i ∈ m.map Prod.fst, i < cfg.cap

/-- `MemRead(i, 1)`: the word last written to slot `i`, `0 <= i < CAP` (20_memory.md R42).  A slot that was never
written since reset has no value (R45; log entry 2). -/
def memRead (cfg : Config) (m : Memory) (i : Nat) : Except Fault FrameWord :=
  if i < cfg.cap then
    match Memory.lookup i m with
    | some w => .ok w
    | none => .error (.slotUnwritten i)
  else .error (.slotOutOfRange i)

/-- `MemWrite(i, 1, w)`: slot `i` holds `w`, `0 <= i < CAP` (20_memory.md R42). -/
def memWrite (cfg : Config) (m : Memory) (i : Nat) (w : FrameWord) : Except Fault Memory :=
  if i < cfg.cap then .ok (Memory.insert i w m) else .error (.slotOutOfRange i)

/-- What slot `i` of a state reads as. -/
def State.readSlot (s : State) (i : Nat) : Except Fault FrameWord := memRead s.config s.slots i

/-- The 4-bit code of a status (30_encoding.md R73). -/
def Status.code : Status → BitVec 4
  | .ok => 0#4
  | .invalidLength => 1#4
  | .identifierOutOfRange => 2#4
  | .payloadTooShort => 3#4
  | .busFull => 4#4
  | .malformedFrame => 5#4
  | .illegalCommand => 15#4

/-- `return OK, beats` (00_scope.md R9). -/
def Response.okBeats (beats : List FrameWord) : Response := { status := .ok, beats := beats }

/-- `raise E` as a response: status `E`, no data beat (60_exceptions.md R140). -/
def Response.raised (e : Status) : Response := { status := e, beats := [] }

/-- The command ends: its response passes to the host (30_encoding.md R73, R76). -/
def State.respond (s : State) (r : Response) : State :=
  { s with delivered := s.delivered ++ [.completed r] }

/-- `raise E`: the command ends with status `E`, no data beat, and no write to any state (60_exceptions.md R140). -/
def State.raise (s : State) (e : Status) : State := s.respond (.raised e)

/-- The command ends with status `OK` after the beats (00_scope.md R9). -/
def State.returnOk (s : State) (beats : List FrameWord) : State := s.respond (.okBeats beats)

/-- `count <- 0`, no slot written (41_busqueue.md R112). -/
def State.clearCount (s : State) : State := { s with count := 0 }

/-- The state once ENQUEUE's write has left the slots at `m`: `count <- count + 1` (41_busqueue.md R114). -/
def State.appended (s : State) (m : Memory) : State := { s with slots := m, count := s.count + 1 }

/-- `rst`: the architectural state is that of reset (70_reset_and_hazards.md R150, 10_state.md R35), the block the one
that was built.  What has passed to the host stays passed, and what it will still present it will present. -/
def State.takeReset (s : State) : State :=
  { State.resetOf s.config with hostIn := s.hostIn, delivered := s.delivered }

/-- The data beats of the response delivered last. -/
def State.lastBeats (s : State) : List FrameWord :=
  match s.delivered.getLast? with
  | some (.completed r) => r.beats
  | some (.abandoned _) => []
  | none => []

/-- `rst` while the command that takes `before` to `after` is in progress, when at most `passed` of its data beats have
passed: the others never pass, no completion is delivered, and the state is the reset state whatever the command had
done so far (70_reset_and_hazards.md R152). -/
def State.abandon (before after : State) (passed : Nat) : State :=
  { before.takeReset with delivered := before.delivered ++ [.abandoned (after.lastBeats.take passed)] }

/-- The next input of the host is taken. -/
def State.withHostIn (s : State) (rest : List HostInput) : State := { s with hostIn := rest }

end Sys2Proof.Machine
end

