-- ==== Sys2Proof/Machine/BusQueue.lean ====
section
/-! DEFINITION. The BusQueue commands CREATE, ENQUEUE and DRAIN (41_busqueue.md), the only commands that read or write
state. -/

namespace Sys2Proof.Machine

/-- The rendering words of the `n` slots from `i` on, ascending (41_busqueue.md R117).  It stops on a word that is not
well-formed, on which `rend` is not defined; no such word is in a slot below `count` (10_state.md R26). -/
def drainFrom (cfg : Config) (m : Memory) (i : Nat) : Nat → Except Fault (List FrameWord)
  | 0 => .ok []
  | n + 1 =>
    match memRead cfg m i with
    | .error f => .error f
    | .ok w =>
      if FrameWF w then
        match drainFrom cfg m (i + 1) n with
        | .error f => .error f
        | .ok beats => .ok (rend w :: beats)
      else .error (.slotMalformed i)

/-- CREATE (41_busqueue.md R112): `count <- 0`, no slot written, no beat. -/
def execCreate (s : State) : Host.Outcome State Fault Refusal :=
  .next (s.clearCount.returnOk [])

/-- ENQUEUE (41_busqueue.md R114): the well-formedness test, then the capacity test (R116), then the write and the
increment. -/
def execEnqueue (frame : FrameWord) (s : State) : Host.Outcome State Fault Refusal :=
  if FrameWF frame then
    if s.count = s.config.cap then .next (s.raise .busFull)
    else
      match memWrite s.config s.slots s.count frame with
      | .ok m => .next ((s.appended m).returnOk [])
      | .error f => .fault f
  else .next (s.raise .malformedFrame)

/-- DRAIN (41_busqueue.md R117). -/
def execDrain (s : State) : Host.Outcome State Fault Refusal :=
  match drainFrom s.config s.slots 0 s.count with
  | .ok beats => .next (s.returnOk beats)
  | .error f => .fault f

end Sys2Proof.Machine
end

