-- ==== Sys2Proof/Machine/Codec.lean ====
section
/-! DEFINITION. The FrameCodec commands BUILD and RENDER (40_framecodec.md): pure functions of the command word
(10_state.md R21, 41_busqueue.md R123). -/

namespace Sys2Proof.Machine

/-- The first of BUILD's three error conditions that holds (40_framecodec.md R92, R93, R94; 60_exceptions.md R138). -/
def buildError (ext : IdKind) (idIn : BitVec 32) (lenIn : BitVec 8) (payCount : BitVec 4) : Option Status :=
  if Config.maxDlc < lenIn.toNat then some .invalidLength
  else if 2 ^ idWidth ext ≤ idIn.toNat then some .identifierOutOfRange
  else if payCount.toNat < lenIn.toNat then some .payloadTooShort
  else none

/-- The frame word BUILD makes (40_framecodec.md R90, R91, R95). -/
def buildFrame (ext : IdKind) (idIn : BitVec 32) (lenIn : BitVec 8) (payIn : BitVec 64) : FrameWord :=
  frameWord 0#1 ext.tag (idBits ext idIn) 0#1 (lenIn.extractLsb 3 0) (keepBytes lenIn.toNat payIn) 0#15 0#2 0x7F#7

/-- BUILD's response (40_framecodec.md R90). -/
def buildResponse (ext : IdKind) (idIn : BitVec 32) (lenIn : BitVec 8) (payCount : BitVec 4) (payIn : BitVec 64) :
    Response :=
  match buildError ext idIn lenIn payCount with
  | some e => .raised e
  | none => .okBeats [buildFrame ext idIn lenIn payIn]

/-- RENDER's response (40_framecodec.md R97). -/
def renderResponse (frame : FrameWord) : Response :=
  if FrameWF frame then .okBeats [rend frame] else .raised .malformedFrame

/-- BUILD (40_framecodec.md R90). -/
def execBuild (ext : IdKind) (idIn : BitVec 32) (lenIn : BitVec 8) (payCount : BitVec 4) (payIn : BitVec 64)
    (s : State) : Host.Outcome State Fault Refusal :=
  .next (s.respond (buildResponse ext idIn lenIn payCount payIn))

/-- RENDER (40_framecodec.md R97). -/
def execRender (frame : FrameWord) (s : State) : Host.Outcome State Fault Refusal :=
  .next (s.respond (renderResponse frame))

end Sys2Proof.Machine
end

