-- ==== Sys2Proof/Machine/Dispatch.lean ====
section
/-! DEFINITION. One arm per command of the opcode table (30_encoding.md R78). -/

namespace Sys2Proof.Machine

def exec (i : Instr) (s : State) : Host.Outcome State Fault Refusal :=
  match i with
  | .build ext idIn lenIn payCount payIn => Sys2Proof.Machine.execBuild ext idIn lenIn payCount payIn s
  | .render frame => Sys2Proof.Machine.execRender frame s
  | .create => Sys2Proof.Machine.execCreate s
  | .enqueue frame => Sys2Proof.Machine.execEnqueue frame s
  | .drain => Sys2Proof.Machine.execDrain s

end Sys2Proof.Machine
end

