-- ==== Sys2Proof/Machine/Step.lean ====
section
/-! DEFINITION. One step: the next input of the host is taken (00_scope.md R11, 10_state.md R23: the block fetches
nothing, the host presents command words one at a time). -/

namespace Sys2Proof.Machine

/-- The block takes one command word: a command is executed, any other word is answered `IllegalCommand` before every
other test (30_encoding.md R79, 60_exceptions.md R138). -/
def runCommand (c : CommandWord) (s : State) : Host.Outcome State Fault Refusal :=
  match decode c with
  | .ok i => exec i s
  | .error _ => .next (s.raise .illegalCommand)

/-- One step (00_scope.md R11).  With nothing presented the block waits (30_encoding.md R76). -/
def step (s : State) : Host.Outcome State Fault Refusal :=
  match s.hostIn with
  | [] => .next s
  | .command c :: rest => runCommand c (s.withHostIn rest)
  | .reset :: rest => .next (s.withHostIn rest).takeReset
  | .resetDuring c passed :: rest =>
    match runCommand c (s.withHostIn rest) with
    | .next t => .next ((s.withHostIn rest).abandon t passed)
    | .fault f => .fault f
    | .refused r => .refused r

/-- The host presents the word whose bits are `w` next (bit 0 the least significant, the bits above `nbits` zero): the
very next step takes it. -/
def State.withFetchWord (s : State) (nbits w : Nat) : State :=
  { s with hostIn := .command (tableWord nbits w) :: s.hostIn }

end Sys2Proof.Machine
end

