-- ==== Sys2Proof/Machine/Flags.lean ====
section
/-! DEFINITION. The block has no condition codes and no flags register; its three status outputs are functions of
`count` (10_state.md R30). -/

namespace Sys2Proof.Machine

/-- `q_count`, `count` in the `CNT_W` bits of its register: 7 for `CAP` = 100 (10_state.md R24, R30). -/
def qCount (s : State) : BitVec s.config.cntW := BitVec.ofNat s.config.cntW s.count

/-- `q_empty`: `count == 0` (10_state.md R30). -/
def qEmpty (s : State) : BitVec 1 := BitVec.ofBool (decide (s.count = 0))

/-- `q_full`: `count == CAP` (10_state.md R30). -/
def qFull (s : State) : BitVec 1 := BitVec.ofBool (decide (s.count = s.config.cap))

end Sys2Proof.Machine
end

