-- ==== Sys2Proof/Machine/ListView.lean ====
section
/-! DEFINITION. The list view of the block (10_state.md R20, 41_busqueue.md R110): the state as the one list `q` of the
stored frame words, and the whole block, built with a given configuration, as the function of 00_scope.md R11 on it. -/

namespace Sys2Proof.Machine

/-- `q = [slot[0], ..., slot[count-1]]` (10_state.md R20). -/
def State.queue (s : State) : List FrameWord :=
  (List.range s.count).filterMap (fun i => Memory.lookup i s.slots)

/-- What each command does to the list, and its response (41_busqueue.md R110). -/
def listExec (cfg : Config) (i : Instr) (q : List FrameWord) : List FrameWord × Response :=
  match i with
  | .build ext idIn lenIn payCount payIn => (q, buildResponse ext idIn lenIn payCount payIn)
  | .render frame => (q, renderResponse frame)
  | .create => ([], .okBeats [])
  | .enqueue frame =>
    if FrameWF frame then
      if q.length < cfg.cap then (q ++ [frame], .okBeats []) else (q, .raised .busFull)
    else (q, .raised .malformedFrame)
  | .drain => (q, .okBeats (q.map rend))

/-- `step : State x Command -> State x Response` (00_scope.md R11). -/
def listStep (cfg : Config) (q : List FrameWord) (c : CommandWord) : List FrameWord × Response :=
  match decode c with
  | .ok i => listExec cfg i q
  | .error _ => (q, .raised .illegalCommand)

/-- A run on a finite list of commands: the left fold of `listStep`, collecting the responses in order (00_scope.md
R11, R13). -/
def listRun (cfg : Config) (q : List FrameWord) : List CommandWord → List FrameWord × List Response
  | [] => (q, [])
  | c :: cs =>
    let first := listStep cfg q c
    let later := listRun cfg first.1 cs
    (later.1, first.2 :: later.2)

end Sys2Proof.Machine
end

