-- ==== Sys2Proof/Machine/Ports.lean ====
section
/-! DEFINITION. A response as its items stand on the response port (30_encoding.md R73, R75, R76), and the text a host
makes of its beats (40_framecodec.md R100). -/

namespace Sys2Proof.Machine

/-- One item on the response port: `rsp_done`, `rsp_data`, `rsp_status` (30_encoding.md R75). -/
structure PortItem where
  done : BitVec 1
  data : FrameWord
  status : BitVec 4
  deriving DecidableEq, Repr

/-- A data beat: `rsp_done` 0 and `rsp_status` driven 0 (30_encoding.md R75). -/
def beatItem (b : FrameWord) : PortItem := { done := 0#1, data := b, status := 0#4 }

/-- The completion: `rsp_done` 1 and `rsp_data` driven 0 (30_encoding.md R75). -/
def completionItem (e : Status) : PortItem := { done := 1#1, data := 0#124, status := e.code }

/-- The items of a response in the order in which they pass: the data beats, then the completion (30_encoding.md R76). -/
def Response.portItems (r : Response) : List PortItem := r.beats.map beatItem ++ [completionItem r.status]

/-- The items that have passed to the host from one command; an abandoned command has no completion
(70_reset_and_hazards.md R152). -/
def Delivery.portItems : Delivery → List PortItem
  | .completed r => r.portItems
  | .abandoned beats => beats.map beatItem

/-- The text a host makes of a response: `RENDER_TEXT` applied to each beat (40_framecodec.md R100). -/
def Response.text (r : Response) : List String := r.beats.map Config.renderText

end Sys2Proof.Machine
end

