-- ==== Sys2Proof/Machine/RenderText.lean ====
section
/-! DEFINITION. The reference instance of `RENDER_TEXT` (92_eei_decisions.md D16), "the spec's own choice, not in the
source", for smoke tests only: no rule of the block depends on it (40_framecodec.md R100).  Text is a list of
characters here; a line ends in one line feed. -/

namespace Sys2Proof.Machine

/-- One upper-case hexadecimal digit. -/
def hexDigit (d : Nat) : Char :=
  if d < 10 then Char.ofNat (48 + d) else Char.ofNat (55 + d)

/-- The digits of `v` in base 16, most significant first, at most `fuel` of them. -/
def hexDigits : Nat → Nat → List Char
  | 0, _ => []
  | fuel + 1, v => if v < 16 then [hexDigit v] else hexDigits fuel (v / 16) ++ [hexDigit (v % 16)]

/-- `HEX(v)`: upper-case hexadecimal with no leading zeros, `0` for zero; the widest field, `id`, has 29 bits, so eight
digits hold it. -/
def hexText (v : Nat) : List Char := hexDigits 8 v

/-- A number below 20 in decimal; `dlc` is at most 15. -/
def decText (v : Nat) : List Char :=
  if v < 10 then [hexDigit v] else ['1', hexDigit (v - 10)]

/-- `HH(b)`: a byte as exactly two upper-case hexadecimal digits. -/
def hexByte (b : Byte) : List Char := [hexDigit (b.toNat / 16), hexDigit (b.toNat % 16)]

/-- The name of the kind a rendering word shows. -/
def kindText (r : FrameWord) : List Char :=
  if ideField r = 1#1 then "Extended".toList else "Standard".toList

/-- The bytes a rendering word shows: exactly `dlc` of them (40_framecodec.md R99, clause 2). -/
def shownBytes (r : FrameWord) : List Byte :=
  ((List.finRange 8).filter (fun k => decide (k.val < (dlcField r).toNat))).map (byteAt (dataField r))

/-- The seven lines of the reference instance (92_eei_decisions.md D16). -/
def referenceLines (r : FrameWord) : List (List Char) :=
  ["Start of Frame: ".toList ++ hexText (sofField r).toNat,
   "Identifier (".toList ++ kindText r ++ "): 0x".toList ++ hexText (idField r).toNat,
   "Data Length: ".toList ++ decText (dlcField r).toNat,
   "Data:".toList ++ (shownBytes r).flatMap (fun b => ' ' :: hexByte b),
   "CRC: 0x".toList ++ hexText (crcField r).toNat,
   "ACK: 0x".toList ++ hexText (ackField r).toNat,
   "End of Frame: 0x".toList ++ hexText (eofField r).toNat]

/-- The reference text of a rendering word (92_eei_decisions.md D16). -/
def referenceText (r : FrameWord) : List Char :=
  (referenceLines r).flatMap (fun line => line ++ [Char.ofNat 10])

end Sys2Proof.Machine
end

