-- ==== Sys2Proof/Safety.lean ====
section
/-! DEFINITION. The terms claims use: a good state, a safe run, the statuses a command can end with, and what two runs
must share to look alike to the host. -/

namespace Sys2Proof.Machine

/-- Slot `i` holds a well-formed word (10_state.md R26, clause 2). -/
abbrev StoredFrame (m : Memory) (i : Nat) : Prop :=
  (Memory.lookup i m).any (fun w => decide (FrameWF w)) = true

/-- An admissible capacity (00_scope.md R7), the canonical form of the slot array, and the invariants 1 and 2 of
10_state.md R26. -/
abbrev State.Inv (s : State) : Prop :=
  1 ≤ s.config.cap ∧ Memory.wf s.config s.slots ∧ s.count ≤ s.config.cap ∧ ∀ i < s.count, StoredFrame s.slots i

/-- A safe run: no number of steps stops the block (00_scope.md R12: "No outcome leaves the block stuck, halted or in a
sticky error state"). -/
def State.RunsSafely (s : State) : Prop :=
  ∀ n : Nat, ∃ t : State, Sys2Proof.core.run n s = .next t

/-- The statuses with which a command word of each opcode can end (60_exceptions.md R139). -/
def statusesOf (opcode : BitVec 4) : List Status :=
  if opcode = 1#4 then [.ok, .invalidLength, .identifierOutOfRange, .payloadTooShort, .illegalCommand]
  else if opcode = 2#4 then [.ok, .malformedFrame]
  else if opcode = 3#4 then [.ok, .illegalCommand]
  else if opcode = 4#4 then [.ok, .busFull, .malformedFrame]
  else if opcode = 5#4 then [.ok, .illegalCommand]
  else [.illegalCommand]

/-- Two frame words that differ at most in `rtr` and in data bytes from `dlc` on (40_framecodec.md R99, clause 5). -/
abbrev SameShown (w v : FrameWord) : Prop :=
  sofField w = sofField v ∧ ideField w = ideField v ∧ idField w = idField v ∧ dlcField w = dlcField v ∧
    (∀ k : Fin 8, k.val < (dlcField w).toNat → byteAt (dataField w) k = byteAt (dataField v) k) ∧
    crcField w = crcField v ∧ ackField w = ackField v ∧ eofField w = eofField v

/-- Two command words that are equal, or are RENDER or ENQUEUE of words that differ at most where nothing is shown. -/
def SameShownCommand (c d : CommandWord) : Prop :=
  c = d ∨ ∃ w v : FrameWord, SameShown w v ∧
    (c = encode (.render w) ∧ d = encode (.render v) ∨ c = encode (.enqueue w) ∧ d = encode (.enqueue v))

/-- Two inputs of the host that differ at most where nothing is shown. -/
def SameShownInput : HostInput → HostInput → Prop
  | .command c, .command d => SameShownCommand c d
  | .reset, .reset => True
  | .resetDuring c n, .resetDuring d m => SameShownCommand c d ∧ n = m
  | _, _ => False

end Sys2Proof.Machine
end

