-- ==== Sys2Proof/Certificates/Slice0/Obligations.lean ====
section
/-! DEFINITION. The statements for the provers, each named after what it states and citing the rule of spec/ it
formalises. -/

open Sys2Proof Sys2Proof.Machine

/-! ## Encodings -/

/-- One command word of each row, written out in 95_test_vectors.md (B1, R4, Q1, Q3, Q11), decodes to the command it
stands for. -/
def Obligations.ListedCommandWordsDecode : Prop :=
  decode 0x1000000918226F56DF77800000000000#128 = .ok (.build .standard 0x123 4 4 0xDEADBEEF00000000) ∧
  decode 0x2C3579BDF31122334455667788246955#128 = .ok (.render 0xC3579BDF31122334455667788246955) ∧
  decode 0x30000000000000000000000000000000#128 = .ok .create ∧
  decode 0x4000002464DEADBEEF0000000000007F#128 = .ok (.enqueue 0x000002464DEADBEEF0000000000007F) ∧
  decode 0x50000000000000000000000000000000#128 = .ok .drain

/-- The word of every command decodes to that command: no operand bit is dropped (30_encoding.md R61, R71). -/
def Obligations.DecodeOfEncodeIsTheCommand : Prop :=
  ∀ i : Instr, decode (encode i) = .ok i

/-- Every word that decodes is the word of what it decodes to: each command has one word (30_encoding.md R61, R79). -/
def Obligations.EncodeOfDecodeIsTheWord : Prop :=
  ∀ (c : CommandWord) (i : Instr), decode c = .ok i → encode i = c

/-- 30_encoding.md R78: exactly one row of the opcode table matches every word that is not illegal, the row of the
command it decodes to, and none matches an illegal word. -/
def Obligations.EveryWordSelectsItsOneRow : Prop :=
  ∀ c : CommandWord,
    match decode c with
    | .ok i => selectedRows c = [i.mnemonic]
    | .error _ => selectedRows c = []

/-- 30_encoding.md R61, R71: where each operand is taken from the command word. -/
def Obligations.OperandsAreTheFieldsOfTheWord : Prop :=
  ∀ c : CommandWord,
    (c.extractLsb 127 124 = 1#4 → c.extractLsb 14 0 = 0#15 →
      decode c = .ok (.build (if c.extractLsb 123 123 = 1#1 then .extended else .standard)
        (c.extractLsb 122 91) (c.extractLsb 90 83) (c.extractLsb 82 79) (c.extractLsb 78 15))) ∧
    (c.extractLsb 127 124 = 2#4 → decode c = .ok (.render (c.extractLsb 123 0))) ∧
    (c.extractLsb 127 124 = 4#4 → decode c = .ok (.enqueue (c.extractLsb 123 0)))

/-- 30_encoding.md R79: a word with opcode 0 or 6 to 15, a BUILD with a reserved bit of `[14:0]` set, and a CREATE or
DRAIN with a bit of `[123:0]` set are answered with status 15, no data beat and no state change; every other word is
one of the five commands. -/
def Obligations.IllegalWordsAnsweredIllegalCommand : Prop :=
  Status.illegalCommand.code = 15#4 ∧
  ∀ (c : CommandWord) (s : State) (rest : List HostInput), s.hostIn = .command c :: rest →
    if (c.extractLsb 127 124).toNat = 0 ∨ 6 ≤ (c.extractLsb 127 124).toNat ∨
        (c.extractLsb 127 124 = 1#4 ∧ c.extractLsb 14 0 ≠ 0#15) ∨
        ((c.extractLsb 127 124 = 3#4 ∨ c.extractLsb 127 124 = 5#4) ∧ c.extractLsb 123 0 ≠ 0#124) then
      step s = .next { s with hostIn := rest, delivered := s.delivered ++ [.completed ⟨.illegalCommand, []⟩] }
    else ∃ i : Instr, decode c = .ok i

/-! ## Frames and words -/

/-- 30_encoding.md R69: `pack` and `unpack` are inverse, `pack` onto the well-formed words. -/
def Obligations.PackingIsABijectionOntoWellFormedWords : Prop :=
  (∀ f : Frame, FrameWF (pack f) ∧ unpack (pack f) = some f) ∧
  ∀ w : FrameWord, FrameWF w → ∃ f : Frame, unpack w = some f ∧ pack f = w

/-- 30_encoding.md R68 and 41_busqueue.md R116: a word is the packing of a Frame exactly when `dlc` is at most 8 and a
Standard identifier has its upper 18 bits clear; RENDER and ENQUEUE answer any other word `MalformedFrame`, ENQUEUE
whether or not the queue is full, and change nothing. -/
def Obligations.MalformedWordsSpellNoFrameAndAreRefused : Prop :=
  ∀ w : FrameWord,
    if (w.extractLsb 91 88).toNat ≤ 8 ∧ (w.extractLsb 122 122 = 1#1 ∨ w.extractLsb 121 104 = 0#18) then
      ∃ f : Frame, pack f = w
    else
      (¬ ∃ f : Frame, pack f = w) ∧
      ∀ s : State,
        exec (.render w) s = .next { s with delivered := s.delivered ++ [.completed ⟨.malformedFrame, []⟩] } ∧
        exec (.enqueue w) s = .next { s with delivered := s.delivered ++ [.completed ⟨.malformedFrame, []⟩] }

/-- 30_encoding.md R64: the tag is bit 122, 0 Standard and 1 Extended; an Extended value fills the field, a Standard
value is right-aligned with the upper 18 bits zero; the same number under the two tags gives two different words; and a
word with tag 0 and an upper bit set encodes no identifier. -/
def Obligations.IdentifierEncoding : Prop :=
  (∀ (f : Frame) (v : BitVec 11), f.identifier = .standard v →
    (pack f).extractLsb 122 122 = 0#1 ∧ (pack f).extractLsb 103 93 = v ∧ (pack f).extractLsb 121 104 = 0#18) ∧
  (∀ (f : Frame) (v : BitVec 29), f.identifier = .extended v →
    (pack f).extractLsb 122 122 = 1#1 ∧ (pack f).extractLsb 121 93 = v) ∧
  (∀ (f : Frame) (v : BitVec 11),
    pack { f with identifier := .standard v } ≠ pack { f with identifier := .extended (v.setWidth 29) }) ∧
  ∀ w : FrameWord, w.extractLsb 122 122 = 0#1 → w.extractLsb 121 104 ≠ 0#18 → unpack w = none

/-! ## Reset, status outputs and the step -/

/-- 10_state.md R35: an empty queue with capacity 100: `count` 0, the list view empty, `q_count` 0, `q_empty` 1,
`q_full` 0.  But for the capacity the same holds of the reset state of every admissible configuration (00_scope.md
R7). -/
def Obligations.ResetStateIsTheEmptyQueue : Prop :=
  State.reset = State.resetOf State.reset.config ∧ State.reset.config.cap = 100 ∧
    ∀ cfg : Config, 1 ≤ cfg.cap →
      (State.resetOf cfg).config = cfg ∧ (State.resetOf cfg).count = 0 ∧ (State.resetOf cfg).queue = [] ∧
        (qCount (State.resetOf cfg)).toNat = 0 ∧ qEmpty (State.resetOf cfg) = 1#1 ∧ qFull (State.resetOf cfg) = 0#1

/-- 10_state.md R30: the three outputs are functions of `count`, 7, 1 and 1 bits wide and 0, 1, 0 at reset for this
hardware; `q_full` = 1 is exactly the condition under which ENQUEUE of a well-formed frame fails with `BusFull`, and it
falls to 0 only through CREATE or reset.  `q_count` is `count` where `count` is one of its legal values (R20). -/
def Obligations.StatusOutputsFollowCount : Prop :=
  (State.reset.config.cntW = 7 ∧ (qCount State.reset).toNat = 0 ∧ qEmpty State.reset = 1#1 ∧
    qFull State.reset = 0#1) ∧
  ∀ s : State,
    (s.count ≤ s.config.cap → (qCount s).toNat = s.count) ∧ qEmpty s = (if s.count = 0 then 1#1 else 0#1) ∧
      qFull s = (if s.count = s.config.cap then 1#1 else 0#1) ∧
      (∀ w : FrameWord, FrameWF w →
        (qFull s = 1#1 ↔
          exec (.enqueue w) s = .next { s with delivered := s.delivered ++ [.completed ⟨.busFull, []⟩] })) ∧
      ∀ t : State, step s = .next t → qFull s = 1#1 → qFull t = 0#1 →
        (∃ rest, s.hostIn = .reset :: rest) ∨ (∃ c n rest, s.hostIn = .resetDuring c n :: rest) ∨
          ∃ c rest, s.hostIn = .command c :: rest ∧ decode c = .ok .create

/-- A step runs the decoded command: with a command word presented next that decodes to `i`, the step is `exec i` of
the state with that input taken (00_scope.md R11, 10_state.md R23). -/
def Obligations.StepRunsTheDecodedCommand : Prop :=
  ∀ (s : State) (c : CommandWord) (rest : List HostInput) (i : Instr),
    s.hostIn = .command c :: rest → decode c = .ok i → step s = exec i { s with hostIn := rest }

/-- With nothing presented the block waits: the model's choice (log entry 1), resting on 30_encoding.md R76, by which
a command is taken only when the host offers one. -/
def Obligations.StepWithNothingPresentedWaits : Prop :=
  ∀ s : State, s.hostIn = [] → step s = .next s

/-- 70_reset_and_hazards.md R150: `rst` with no command in progress gives the reset state.  That no slot has a value
then is the model's choice (log entry 2, from R151); what has passed to the host stays passed. -/
def Obligations.ResetInputGivesTheResetState : Prop :=
  ∀ (s : State) (rest : List HostInput), s.hostIn = .reset :: rest →
    step s = .next { State.resetOf s.config with hostIn := rest, delivered := s.delivered }

/-- 70_reset_and_hazards.md R152: `rst` while a command is in progress, when at most `n` of its data beats have passed:
the other items never pass, no completion is delivered, and the state is the reset state whatever the command did.  That
no slot has a value then is the model's choice (log entry 2, DESIGN CHOICE); that the later inputs stay, and that an `n`
above the number of beats means that all of them have passed, is the model's too (log entry 6, DEDUCED). -/
def Obligations.ResetDuringACommandAbandonsIt : Prop :=
  ∀ (s : State) (c : CommandWord) (n : Nat) (rest : List HostInput),
    s.Inv → s.hostIn = .resetDuring c n :: rest →
    step s = .next { State.resetOf s.config with
      hostIn := rest, delivered := s.delivered ++ [.abandoned ((listStep s.config s.queue c).2.beats.take n)] }

/-! ## BUILD and RENDER -/

/-- 40_framecodec.md R91, R95: where none of the three error conditions holds, BUILD returns OK with one beat: the
requested identifier, kind and length, exactly `length` bytes copied and 0x00 beyond them, and the fixed fields; no
state changes. -/
def Obligations.BuildReturnsTheRequestedFrame : Prop :=
  ∀ (ext : IdKind) (idIn : BitVec 32) (lenIn : BitVec 8) (payCount : BitVec 4) (payIn : BitVec 64) (s : State),
    lenIn.toNat ≤ 8 → idIn.toNat < 2 ^ (if ext = .extended then 29 else 11) → lenIn.toNat ≤ payCount.toNat →
    ∃ f : FrameWord,
      exec (.build ext idIn lenIn payCount payIn) s =
        .next { s with delivered := s.delivered ++ [.completed ⟨.ok, [f]⟩] } ∧
      f.extractLsb 123 123 = 0#1 ∧
      f.extractLsb 122 122 = (if ext = .extended then 1#1 else 0#1) ∧
      (f.extractLsb 121 93).toNat = idIn.toNat ∧
      f.extractLsb 92 92 = 0#1 ∧
      (f.extractLsb 91 88).toNat = lenIn.toNat ∧
      (∀ k : Fin 8, f.extractLsb' (80 - 8 * k.val) 8 =
        if k.val < lenIn.toNat then payIn.extractLsb' (56 - 8 * k.val) 8 else 0#8) ∧
      f.extractLsb 23 9 = 0#15 ∧ f.extractLsb 8 7 = 0#2 ∧ f.extractLsb 6 0 = 0x7F#7

/-- 40_framecodec.md R92, R93, R94: BUILD's three error conditions, the first in this order that holds being the one
reported, with no beat and no state change; the identifier is never truncated. -/
def Obligations.BuildReportsItsFirstError : Prop :=
  ∀ (ext : IdKind) (idIn : BitVec 32) (lenIn : BitVec 8) (payCount : BitVec 4) (payIn : BitVec 64) (s : State),
    (8 < lenIn.toNat →
      exec (.build ext idIn lenIn payCount payIn) s =
        .next { s with delivered := s.delivered ++ [.completed ⟨.invalidLength, []⟩] }) ∧
    (lenIn.toNat ≤ 8 → 2 ^ (if ext = .extended then 29 else 11) ≤ idIn.toNat →
      exec (.build ext idIn lenIn payCount payIn) s =
        .next { s with delivered := s.delivered ++ [.completed ⟨.identifierOutOfRange, []⟩] }) ∧
    (lenIn.toNat ≤ 8 → idIn.toNat < 2 ^ (if ext = .extended then 29 else 11) → payCount.toNat < lenIn.toNat →
      exec (.build ext idIn lenIn payCount payIn) s =
        .next { s with delivered := s.delivered ++ [.completed ⟨.payloadTooShort, []⟩] })

/-- 40_framecodec.md R96: every successful BUILD returns a built word whose `dlc` is the requested length, and every
built word is returned by the BUILD the rule names. -/
def Obligations.BuiltWordsAreExactlyWhatBuildReturns : Prop :=
  (∀ (ext : IdKind) (idIn : BitVec 32) (lenIn : BitVec 8) (payCount : BitVec 4) (payIn : BitVec 64) (s : State)
      (f : FrameWord),
    exec (.build ext idIn lenIn payCount payIn) s =
      .next { s with delivered := s.delivered ++ [.completed ⟨.ok, [f]⟩] } →
    FrameBuilt f ∧ (f.extractLsb 91 88).toNat = lenIn.toNat) ∧
  ∀ (f : FrameWord) (s : State), FrameBuilt f →
    exec (.build (if f.extractLsb 122 122 = 1#1 then .extended else .standard)
        ((f.extractLsb 121 93).setWidth 32) ((f.extractLsb 91 88).setWidth 8) (f.extractLsb 91 88)
        (f.extractLsb 87 24)) s =
      .next { s with delivered := s.delivered ++ [.completed ⟨.ok, [f]⟩] }

/-- 30_encoding.md R80: two BUILDs that differ only in payload bytes at index `len_in` and above, and in `pay_count`
without changing the outcome of `pay_count < len_in`, do the same. -/
def Obligations.BuildIgnoresUnusedOperandBits : Prop :=
  ∀ (ext : IdKind) (idIn : BitVec 32) (lenIn : BitVec 8) (n m : BitVec 4) (p q : BitVec 64) (s : State),
    (∀ k : Fin 8, k.val < lenIn.toNat → byteAt p k = byteAt q k) →
    (n.toNat < lenIn.toNat ↔ m.toNat < lenIn.toNat) →
    exec (.build ext idIn lenIn n p) s = exec (.build ext idIn lenIn m q) s

/-- 30_encoding.md R72: with a payload sequence of any size encoded as the host encodes it, BUILD does on the port what
the source's `build` does on the sequence: the three conditions are those on its size, and the bytes copied are its
first `len`. -/
def Obligations.HostPayloadEncodingLosesNothing : Prop :=
  ∀ (kind : IdKind) (id len : Nat) (p : List Byte) (s : State), id < 2 ^ 32 → len < 2 ^ 8 →
    ∃ (c : CommandWord) (i : Instr), assemble (.build kind id len p) = some c ∧ decode c = .ok i ∧
      if 8 < len then
        exec i s = .next { s with delivered := s.delivered ++ [.completed ⟨.invalidLength, []⟩] }
      else if 2 ^ (if kind = .extended then 29 else 11) ≤ id then
        exec i s = .next { s with delivered := s.delivered ++ [.completed ⟨.identifierOutOfRange, []⟩] }
      else if p.length < len then
        exec i s = .next { s with delivered := s.delivered ++ [.completed ⟨.payloadTooShort, []⟩] }
      else
        ∃ f : FrameWord,
          exec i s = .next { s with delivered := s.delivered ++ [.completed ⟨.ok, [f]⟩] } ∧
          f.extractLsb 122 122 = (if kind = .extended then 1#1 else 0#1) ∧
          (f.extractLsb 121 93).toNat = id ∧ (f.extractLsb 91 88).toNat = len ∧
          ∀ k : Fin 8, k.val < len → p[k.val]? = some (f.extractLsb' (80 - 8 * k.val) 8)

/-- 40_framecodec.md R98, 30_encoding.md R70: RENDER of a well-formed word returns OK with the one beat that shows the
seven items as stored, `rtr` and every byte from `dlc` on forced to zero; no state changes. -/
def Obligations.RenderReturnsTheRenderingWord : Prop :=
  ∀ (w : FrameWord) (s : State), FrameWF w →
    ∃ r : FrameWord,
      exec (.render w) s = .next { s with delivered := s.delivered ++ [.completed ⟨.ok, [r]⟩] } ∧
      r.extractLsb 123 123 = w.extractLsb 123 123 ∧
      r.extractLsb 122 122 = w.extractLsb 122 122 ∧
      r.extractLsb 121 93 = w.extractLsb 121 93 ∧
      r.extractLsb 92 92 = 0#1 ∧
      r.extractLsb 91 88 = w.extractLsb 91 88 ∧
      (∀ k : Fin 8, r.extractLsb' (80 - 8 * k.val) 8 =
        if k.val < (w.extractLsb 91 88).toNat then w.extractLsb' (80 - 8 * k.val) 8 else 0#8) ∧
      r.extractLsb 23 9 = w.extractLsb 23 9 ∧ r.extractLsb 8 7 = w.extractLsb 8 7 ∧
      r.extractLsb 6 0 = w.extractLsb 6 0

/-- 40_framecodec.md R99, clauses 4 and 5: `rend` is idempotent and the identity on built words, and two words have the
same rendering exactly when they differ at most in `rtr` and in data bytes from `dlc` on. -/
def Obligations.RenderingForgetsExactlyTheHiddenBits : Prop :=
  ∀ w v : FrameWord, FrameWF w → FrameWF v →
    rend (rend w) = rend w ∧ (FrameBuilt w → rend w = w) ∧ (rend w = rend v ↔ SameShown w v)

/-- 40_framecodec.md R99, clause 3: what BUILD returns, RENDER shows with the requested kind, identifier and length. -/
def Obligations.BuildThenRenderRoundTrip : Prop :=
  ∀ (ext : IdKind) (idIn : BitVec 32) (lenIn : BitVec 8) (payCount : BitVec 4) (payIn : BitVec 64) (s : State)
      (f : FrameWord),
    exec (.build ext idIn lenIn payCount payIn) s =
      .next { s with delivered := s.delivered ++ [.completed ⟨.ok, [f]⟩] } →
    exec (.render f) s = .next { s with delivered := s.delivered ++ [.completed ⟨.ok, [f]⟩] } ∧
      f.extractLsb 122 122 = (if ext = .extended then 1#1 else 0#1) ∧
      (f.extractLsb 121 93).toNat = idIn.toNat ∧ (f.extractLsb 91 88).toNat = lenIn.toNat

/-- 40_framecodec.md R99, clause 2: the bytes shown by the rendering of a well-formed word are exactly its first `dlc`
bytes. -/
def Obligations.RenderedByteCountIsDataLength : Prop :=
  ∀ w : FrameWord, FrameWF w →
    (shownBytes (rend w)).length = (dlcField w).toNat ∧
      ∀ k : Fin 8, k.val < (dlcField w).toNat → (shownBytes (rend w))[k.val]? = some (byteAt (dataField w) k)

/-- 10_state.md R21, 41_busqueue.md R123: BUILD and RENDER give the same response in every state and change nothing. -/
def Obligations.BuildAndRenderIgnoreTheQueue : Prop :=
  (∀ (ext : IdKind) (idIn : BitVec 32) (lenIn : BitVec 8) (payCount : BitVec 4) (payIn : BitVec 64),
    ∃ r : Response, ∀ s : State, exec (.build ext idIn lenIn payCount payIn) s =
      .next { s with delivered := s.delivered ++ [.completed r] }) ∧
  ∀ w : FrameWord, ∃ r : Response, ∀ s : State,
    exec (.render w) s = .next { s with delivered := s.delivered ++ [.completed r] }

/-! ## CREATE, ENQUEUE and DRAIN -/

/-- 20_memory.md R42: inside the address space, a slot index below `CAP`, a slot written reads as the word written and
every other slot as before.  At index `CAP` and above R42 defines neither primitive: that both stop there with
`slotOutOfRange` is the model's choice (log entry 3, DEDUCED). -/
def Obligations.SlotReadsWhatWasLastWritten : Prop :=
  ∀ (cfg : Config) (m : Memory) (i : Nat) (w : FrameWord),
    if i < cfg.cap then
      ∃ m' : Memory, memWrite cfg m i w = .ok m' ∧ memRead cfg m' i = .ok w ∧
        (∀ j : Nat, j ≠ i → memRead cfg m' j = memRead cfg m j) ∧ (Memory.wf cfg m → Memory.wf cfg m')
    else memWrite cfg m i w = .error (.slotOutOfRange i) ∧ memRead cfg m i = .error (.slotOutOfRange i)

/-- 41_busqueue.md R112: CREATE returns OK with no beat, `count` is 0, no slot is written, and a DRAIN that follows
returns OK with no beat; `q_full` is 0 then because an admissible capacity is at least 1 (00_scope.md R7). -/
def Obligations.CreateEmptiesTheQueue : Prop :=
  ∀ s : State, ∃ t : State,
    exec .create s = .next t ∧
    t = { s with count := 0, delivered := s.delivered ++ [.completed ⟨.ok, []⟩] } ∧
    (qCount t).toNat = 0 ∧ qEmpty t = 1#1 ∧ (1 ≤ s.config.cap → qFull t = 0#1) ∧
    exec .drain t = .next { t with delivered := t.delivered ++ [.completed ⟨.ok, []⟩] }

/-- 70_reset_and_hazards.md R153: reset and CREATE have the same effect on the architectural state; only CREATE has a
completion. -/
def Obligations.ResetAndCreateHaveTheSameEffect : Prop :=
  ∀ (s : State) (rest : List HostInput),
    ∃ t u : State,
      step { s with hostIn := .reset :: rest } = .next t ∧
      step { s with hostIn := .command (encode .create) :: rest } = .next u ∧
      t.config = u.config ∧ t.count = u.count ∧ t.queue = u.queue ∧ t.delivered = s.delivered ∧
      u.delivered = s.delivered ++ [.completed ⟨.ok, []⟩]

/-- 41_busqueue.md R114: ENQUEUE of a well-formed word with `count < CAP` returns OK with no beat, `slot[count]` holds
all 124 bits of the word, `count` is one more, and every other slot reads as before. -/
def Obligations.EnqueueStoresTheFrame : Prop :=
  ∀ (w : FrameWord) (s : State), FrameWF w → s.count < s.config.cap →
    ∃ t : State, exec (.enqueue w) s = .next t ∧
      t.count = s.count + 1 ∧
      t.readSlot s.count = .ok w ∧
      (∀ a : Nat, a ≠ s.count → t.readSlot a = s.readSlot a) ∧
      t.hostIn = s.hostIn ∧ t.delivered = s.delivered ++ [.completed ⟨.ok, []⟩] ∧
      qEmpty t = 0#1 ∧ (qFull t = 1#1 ↔ s.count + 1 = s.config.cap)

/-- 41_busqueue.md R115: on a full queue ENQUEUE of a well-formed word answers `BusFull`, changes nothing and keeps no
copy, and goes on answering so. -/
def Obligations.EnqueueOnAFullQueueIsBusFull : Prop :=
  ∀ (w v : FrameWord) (s : State), FrameWF w → FrameWF v → s.count = s.config.cap →
    ∃ t : State, exec (.enqueue w) s = .next t ∧
      t = { s with delivered := s.delivered ++ [.completed ⟨.busFull, []⟩] } ∧
      exec (.enqueue v) t = .next { t with delivered := t.delivered ++ [.completed ⟨.busFull, []⟩] }

/-- 41_busqueue.md R117: DRAIN returns OK with `count` beats, beat `i` the rendering of slot `i`, and writes nothing;
in every state that meets the invariant of 10_state.md R26. -/
def Obligations.DrainReturnsTheRenderings : Prop :=
  ∀ s : State, s.Inv →
    ∃ beats : List FrameWord,
      exec .drain s = .next { s with delivered := s.delivered ++ [.completed ⟨.ok, beats⟩] } ∧
      beats.length = s.count ∧
      ∀ i < s.count, ∃ w : FrameWord, s.readSlot i = .ok w ∧ beats[i]? = some (rend w)

/-- 20_memory.md R49: two DRAINs with no ENQUEUE or CREATE between them, whatever other command words stand there (a
BUILD, a RENDER, a DRAIN, a word that is no command), return the same beats and write nothing; and two ENQUEUEs of the
same word store it twice. -/
def Obligations.DrainRepeatsAndEnqueueDoesNot : Prop :=
  (∀ (s u : State) (cs : List CommandWord), exec .drain s = .next u →
    (∀ c ∈ cs, decode c ≠ .ok .create ∧ ∀ w : FrameWord, decode c ≠ .ok (.enqueue w)) →
    s.hostIn = [.command (encode .drain)] ++ cs.map HostInput.command ++ [.command (encode .drain)] →
    ∃ (beats : List FrameWord) (rs : List Response), rs.length = cs.length ∧
      core.run (cs.length + 2) s = .next { s with
        hostIn := []
        delivered := s.delivered ++ [.completed ⟨.ok, beats⟩] ++ rs.map Delivery.completed ++
          [.completed ⟨.ok, beats⟩] }) ∧
  (∀ s t : State, exec .drain s = .next t →
    ∃ (beats : List FrameWord) (u : State), exec .drain t = .next u ∧
      t = { s with delivered := s.delivered ++ [.completed ⟨.ok, beats⟩] } ∧
      u = { t with delivered := t.delivered ++ [.completed ⟨.ok, beats⟩] }) ∧
  ∀ (w : FrameWord) (s : State), FrameWF w → s.count + 2 ≤ s.config.cap →
    ∃ t u : State, exec (.enqueue w) s = .next t ∧ exec (.enqueue w) t = .next u ∧
      u.count = s.count + 2 ∧
      u.readSlot s.count = .ok w ∧ u.readSlot (s.count + 1) = .ok w

/-- 41_busqueue.md R118, clause 3: a DRAIN after `n` further successful ENQUEUEs returns the earlier beats followed by
`n` new ones, in order. -/
def Obligations.DrainAfterEnqueuesShowsThemLast : Prop :=
  ∀ (s : State) (ws : List FrameWord), s.Inv → (∀ w ∈ ws, FrameWF w) → s.count + ws.length ≤ s.config.cap →
    s.hostIn = ws.map (fun w => .command (encode (.enqueue w))) ++ [.command (encode .drain)] →
    ∃ (beats : List FrameWord) (t : State),
      exec .drain s = .next { s with delivered := s.delivered ++ [.completed ⟨.ok, beats⟩] } ∧
      core.run (ws.length + 1) s = .next t ∧
      t.delivered = s.delivered ++ List.replicate ws.length (.completed ⟨.ok, []⟩) ++
        [.completed ⟨.ok, beats ++ ws.map rend⟩]

/-! ## The whole block -/

/-- 41_busqueue.md R110: on every command word the block does to the list view what the table of R110 says and gives
the response it says. -/
def Obligations.StepRefinesTheListView : Prop :=
  ∀ (s : State) (c : CommandWord) (rest : List HostInput), s.Inv → s.hostIn = .command c :: rest →
    ∃ t : State, step s = .next t ∧ t.hostIn = rest ∧ t.queue = (listStep s.config s.queue c).1 ∧
      t.delivered = s.delivered ++ [.completed (listStep s.config s.queue c).2]

/-- 00_scope.md R11: a run on a finite list of commands is the left fold of `step` on the list view, the responses
collected in order. -/
def Obligations.RunIsTheFoldOfTheCommands : Prop :=
  ∀ (s : State) (cs : List CommandWord), s.Inv → s.hostIn = cs.map HostInput.command →
    ∃ t : State, core.run cs.length s = .next t ∧ t.hostIn = [] ∧ t.queue = (listRun s.config s.queue cs).1 ∧
      t.delivered = s.delivered ++ (listRun s.config s.queue cs).2.map Delivery.completed

/-- 41_busqueue.md R119: from an empty queue, `CAP` ENQUEUEs of well-formed words each return OK, whatever the capacity
the block is built with; whatever commands but CREATE follow, each ENQUEUE of a well-formed word among them returns
`BusFull`, and the queue still holds the `CAP` words in their order. -/
def Obligations.CapacityProperty : Prop :=
  ∀ (s : State) (ws : List FrameWord) (cs : List CommandWord), s.Inv → s.count = 0 → ws.length = s.config.cap →
    (∀ w ∈ ws, FrameWF w) → (∀ c ∈ cs, decode c ≠ .ok .create) →
    s.hostIn = ws.map (fun w => HostInput.command (encode (.enqueue w))) ++ cs.map HostInput.command →
    ∃ (t : State) (rs : List Response), core.run (s.config.cap + cs.length) s = .next t ∧
      t.queue = ws ∧ t.count = s.config.cap ∧ rs.length = cs.length ∧
      t.delivered =
        s.delivered ++ List.replicate s.config.cap (.completed ⟨.ok, []⟩) ++ rs.map Delivery.completed ∧
      ∀ (k : Nat) (v : FrameWord), cs[k]? = some (encode (.enqueue v)) → FrameWF v → rs[k]? = some ⟨.busFull, []⟩

/-- 10_state.md R26, clauses 1 and 2, the canonical form of the slot array, and an admissible capacity: every step keeps
them, whatever the host presents. -/
def Obligations.EveryStepKeepsTheInvariant : Prop :=
  ∀ s t : State, s.Inv → step s = .next t → t.Inv

/-- The reset state meets the invariant (10_state.md R26, R35), this hardware's and that of every admissible
configuration (00_scope.md R7). -/
def Obligations.ResetStateMeetsTheInvariant : Prop :=
  State.reset.Inv ∧ ∀ cfg : Config, 1 ≤ cfg.cap → (State.resetOf cfg).Inv

/-- 00_scope.md R7, 10_state.md R31: the capacity is fixed when the block is built: no step, whatever the host presents,
changes the configuration.  That the configuration stands in the state is the model's choice (log entry 10). -/
def Obligations.NoStepChangesTheConfiguration : Prop :=
  ∀ s t : State, step s = .next t → t.config = s.config

/-- 00_scope.md R7, 10_state.md R24: `CNT_W` is `ceil(log2(CAP+1))`, the least width that holds 0 to `CAP`, and in every
state that meets the invariant `count` fits it, so that `q_count` is `count`, none of it cut off. -/
def Obligations.CountFitsItsRegister : Prop :=
  ∀ s : State, s.Inv →
    2 ^ (s.config.cntW - 1) < s.config.cap + 1 ∧ s.config.cap + 1 ≤ 2 ^ s.config.cntW ∧
      s.count < 2 ^ s.config.cntW ∧ (qCount s).toNat = s.count

/-- 00_scope.md R11, R12, 20_memory.md R42: in a state that meets the invariant no step stops, whatever the host
presents, and so no run does. -/
def Obligations.NoRunEverStops : Prop :=
  ∀ s : State, s.Inv → s.RunsSafely

/-- 41_busqueue.md R113: nothing but CREATE and reset lowers `count`. -/
def Obligations.OnlyCreateAndResetLowerCount : Prop :=
  ∀ s t : State, step s = .next t → t.count < s.count →
    (∃ rest, s.hostIn = .reset :: rest) ∨ (∃ c n rest, s.hostIn = .resetDuring c n :: rest) ∨
      ∃ c rest, s.hostIn = .command c :: rest ∧ decode c = .ok .create

/-- 10_state.md R25: the one thing but a reset that changes a slot is a successful ENQUEUE, which writes exactly
`slot[count]`, the old `count`; so a slot below `count` keeps its word. -/
def Obligations.OnlyEnqueueWritesASlot : Prop :=
  ∀ (s t : State) (c : CommandWord) (rest : List HostInput) (i : Nat),
    s.hostIn = .command c :: rest → step s = .next t → t.readSlot i ≠ s.readSlot i →
    i = s.count ∧ ∃ w : FrameWord, decode c = .ok (.enqueue w) ∧ FrameWF w ∧ t.readSlot i = .ok w ∧
      t.count = s.count + 1

/-- The frame of each command: what it leaves unchanged when it gives a next state.  BUILD, RENDER and DRAIN change
neither `count` nor a slot, CREATE no slot, ENQUEUE no slot but `slot[count]`, the address its write is given; none
changes the configuration, and each delivers one response and takes no input of the host (40_framecodec.md, 41_busqueue.md: state and flags written). -/
def Obligations.CommandsLeaveTheRestUnchanged : Prop :=
  ∀ (i : Instr) (s t : State), exec i s = .next t →
    t.config = s.config ∧ t.hostIn = s.hostIn ∧
      (∃ r : Response, t.delivered = s.delivered ++ [.completed r]) ∧
      match i with
      | .build _ _ _ _ _ => t.count = s.count ∧ ∀ a : Nat, t.readSlot a = s.readSlot a
      | .render _ => t.count = s.count ∧ ∀ a : Nat, t.readSlot a = s.readSlot a
      | .create => ∀ a : Nat, t.readSlot a = s.readSlot a
      | .enqueue _ => ∀ a : Nat, a ≠ s.count → t.readSlot a = s.readSlot a
      | .drain => t.count = s.count ∧ ∀ a : Nat, t.readSlot a = s.readSlot a

/-- 60_exceptions.md R139: the statuses with which a command word of each opcode can end, no others and each of them in
some state. -/
def Obligations.StatusesByOpcode : Prop :=
  ∀ (op : BitVec 4) (e : Status),
    (∃ (s t : State) (c : CommandWord) (rest : List HostInput) (beats : List FrameWord),
      s.Inv ∧ s.hostIn = .command c :: rest ∧ c.extractLsb 127 124 = op ∧ step s = .next t ∧
        t.delivered = s.delivered ++ [.completed ⟨e, beats⟩]) ↔
    e ∈ statusesOf op

/-- 60_exceptions.md R140: a command that ends with a non-zero status has no data beat and writes no state: the state
after it is the state before it, but for the input taken and the completion delivered. -/
def Obligations.ErrorsChangeNothing : Prop :=
  ∀ (s t : State) (c : CommandWord) (rest : List HostInput) (r : Response),
    s.hostIn = .command c :: rest → step s = .next t → t.delivered = s.delivered ++ [.completed r] →
    r.status ≠ .ok →
    t = { s with hostIn := rest, delivered := s.delivered ++ [.completed ⟨r.status, []⟩] }

/-- 30_encoding.md R74, 70_reset_and_hazards.md R162: every command word gets exactly one response; without success it
has no data beat, with success as many as its opcode and `count` say. -/
def Obligations.BeatsPerCommand : Prop :=
  ∀ (s : State) (c : CommandWord) (rest : List HostInput), s.Inv → s.hostIn = .command c :: rest →
    ∃ (t : State) (r : Response), step s = .next t ∧ t.delivered = s.delivered ++ [.completed r] ∧
      (r.status ≠ .ok → r.beats = []) ∧
      (r.status = .ok → r.beats.length =
        match decode c with
        | .ok (.build _ _ _ _ _) => 1
        | .ok (.render _) => 1
        | .ok .create => 0
        | .ok (.enqueue _) => 0
        | .ok .drain => s.count
        | .error _ => 0)

/-- 30_encoding.md R73, R75, R76: the codes of the seven statuses, and a response on the port: its data beats with
`rsp_done` 0 and status 0, then one completion with `rsp_done` 1, data 0 and the status's code. -/
def Obligations.ResponseItemsOnThePort : Prop :=
  ([Status.ok, .invalidLength, .identifierOutOfRange, .payloadTooShort, .busFull, .malformedFrame,
      .illegalCommand].map Status.code = [0#4, 1#4, 2#4, 3#4, 4#4, 5#4, 15#4]) ∧
  ∀ (e : Status) (beats : List FrameWord),
    (Response.mk e beats).portItems =
      beats.map (fun b => ⟨0#1, b, 0#4⟩) ++ [⟨1#1, 0#124, e.code⟩]

/-- 10_state.md R29, clause 2: frames that differ only in `rtr` and in data bytes from `dlc` on are indistinguishable
through the block.  Two states alike but for such bits, given inputs alike but for such bits, deliver the same to the
host after any number of steps. -/
def Obligations.HiddenBitsNeverReachTheHost : Prop :=
  ∀ (s u : State) (n : Nat), s.Inv → u.Inv → s.config = u.config → s.count = u.count → s.delivered = u.delivered →
    List.Forall₂ SameShown s.queue u.queue → List.Forall₂ SameShownInput s.hostIn u.hostIn →
    ∃ t v : State, core.run n s = .next t ∧ core.run n u = .next v ∧ t.delivered = v.delivered
end

