-- ==== Sys2Proof/Laws/Decode.lean ====
section
/-! SUPPORT. A command word as its opcode and its 124 operand bits (30_encoding.md R60), and the tag of a kind. -/

namespace Sys2Proof

/-- The opcode of a word made of an opcode and 124 operand bits. -/
theorem opcodeOf_append (op : BitVec 4) (w : BitVec 124) : opcodeOf (op ++ w : CommandWord) = op := by
  rw [opcodeOf, BitVec.extractLsb]
  exact (BitVec.extractLsb'_append_eq_of_le (xhi := op) (xlo := w) (start := 124) (len := 4) (by decide)).trans (by simp)

/-- The operand bits of a word made of an opcode and 124 operand bits. -/
theorem operand_append (op : BitVec 4) (w : BitVec 124) : (op ++ w : CommandWord).extractLsb 123 0 = w := by
  rw [BitVec.extractLsb]
  exact (BitVec.extractLsb'_append_eq_of_add_le (xhi := op) (xlo := w) (start := 0) (len := 124) (by decide)).trans
    (by simp)

/-- A word is its opcode and its operand bits. -/
theorem opcode_operand (c : CommandWord) : opcodeOf c ++ c.extractLsb 123 0 = c := by
  simp only [opcodeOf, BitVec.extractLsb]
  rw [BitVec.extractLsb'_append_extractLsb'_eq_extractLsb' (by decide)]
  exact BitVec.extractLsb'_eq_self

/-- A kind is the one its tag selects. -/
@[simp] theorem IdKind.ofTag_tag (k : IdKind) : IdKind.ofTag k.tag = k := by cases k <;> rfl

/-- A tag is the one of the kind it selects. -/
@[simp] theorem IdKind.tag_ofTag (b : BitVec 1) : (IdKind.ofTag b).tag = b := by revert b; decide

end Sys2Proof
end

