-- ==== Sys2Proof/Laws/State.lean ====
section
/-! SUPPORT. One lemma per field per update of the state, and what the two kinds of response hold. -/

namespace Sys2Proof.Machine

@[simp] theorem Response.okBeats_status (bs : List FrameWord) : (Response.okBeats bs).status = .ok := rfl
@[simp] theorem Response.okBeats_beats (bs : List FrameWord) : (Response.okBeats bs).beats = bs := rfl
@[simp] theorem Response.raised_status (e : Status) : (Response.raised e).status = e := rfl
@[simp] theorem Response.raised_beats (e : Status) : (Response.raised e).beats = [] := rfl

@[simp] theorem State.respond_config (s : State) (r : Response) : (s.respond r).config = s.config := rfl
@[simp] theorem State.respond_count (s : State) (r : Response) : (s.respond r).count = s.count := rfl
@[simp] theorem State.respond_slots (s : State) (r : Response) : (s.respond r).slots = s.slots := rfl
@[simp] theorem State.respond_hostIn (s : State) (r : Response) : (s.respond r).hostIn = s.hostIn := rfl
@[simp] theorem State.respond_delivered (s : State) (r : Response) :
    (s.respond r).delivered = s.delivered ++ [.completed r] := rfl

@[simp] theorem State.raise_config (s : State) (e : Status) : (s.raise e).config = s.config := rfl
@[simp] theorem State.raise_count (s : State) (e : Status) : (s.raise e).count = s.count := rfl
@[simp] theorem State.raise_slots (s : State) (e : Status) : (s.raise e).slots = s.slots := rfl
@[simp] theorem State.raise_hostIn (s : State) (e : Status) : (s.raise e).hostIn = s.hostIn := rfl
@[simp] theorem State.raise_delivered (s : State) (e : Status) :
    (s.raise e).delivered = s.delivered ++ [.completed (.raised e)] := rfl

@[simp] theorem State.returnOk_config (s : State) (bs : List FrameWord) : (s.returnOk bs).config = s.config := rfl
@[simp] theorem State.returnOk_count (s : State) (bs : List FrameWord) : (s.returnOk bs).count = s.count := rfl
@[simp] theorem State.returnOk_slots (s : State) (bs : List FrameWord) : (s.returnOk bs).slots = s.slots := rfl
@[simp] theorem State.returnOk_hostIn (s : State) (bs : List FrameWord) : (s.returnOk bs).hostIn = s.hostIn := rfl
@[simp] theorem State.returnOk_delivered (s : State) (bs : List FrameWord) :
    (s.returnOk bs).delivered = s.delivered ++ [.completed (.okBeats bs)] := rfl

@[simp] theorem State.clearCount_config (s : State) : s.clearCount.config = s.config := rfl
@[simp] theorem State.clearCount_count (s : State) : s.clearCount.count = 0 := rfl
@[simp] theorem State.clearCount_slots (s : State) : s.clearCount.slots = s.slots := rfl
@[simp] theorem State.clearCount_hostIn (s : State) : s.clearCount.hostIn = s.hostIn := rfl
@[simp] theorem State.clearCount_delivered (s : State) : s.clearCount.delivered = s.delivered := rfl

@[simp] theorem State.appended_config (s : State) (m : Memory) : (s.appended m).config = s.config := rfl
@[simp] theorem State.appended_count (s : State) (m : Memory) : (s.appended m).count = s.count + 1 := rfl
@[simp] theorem State.appended_slots (s : State) (m : Memory) : (s.appended m).slots = m := rfl
@[simp] theorem State.appended_hostIn (s : State) (m : Memory) : (s.appended m).hostIn = s.hostIn := rfl
@[simp] theorem State.appended_delivered (s : State) (m : Memory) : (s.appended m).delivered = s.delivered := rfl

@[simp] theorem State.takeReset_config (s : State) : s.takeReset.config = s.config := rfl
@[simp] theorem State.takeReset_count (s : State) : s.takeReset.count = 0 := rfl
@[simp] theorem State.takeReset_slots (s : State) : s.takeReset.slots = [] := rfl
@[simp] theorem State.takeReset_hostIn (s : State) : s.takeReset.hostIn = s.hostIn := rfl
@[simp] theorem State.takeReset_delivered (s : State) : s.takeReset.delivered = s.delivered := rfl

@[simp] theorem State.abandon_config (s t : State) (n : Nat) : (s.abandon t n).config = s.config := rfl
@[simp] theorem State.abandon_count (s t : State) (n : Nat) : (s.abandon t n).count = 0 := rfl
@[simp] theorem State.abandon_slots (s t : State) (n : Nat) : (s.abandon t n).slots = [] := rfl
@[simp] theorem State.abandon_hostIn (s t : State) (n : Nat) : (s.abandon t n).hostIn = s.hostIn := rfl
@[simp] theorem State.abandon_delivered (s t : State) (n : Nat) :
    (s.abandon t n).delivered = s.delivered ++ [.abandoned (t.lastBeats.take n)] := rfl

@[simp] theorem State.withHostIn_config (s : State) (l : List HostInput) : (s.withHostIn l).config = s.config := rfl
@[simp] theorem State.withHostIn_count (s : State) (l : List HostInput) : (s.withHostIn l).count = s.count := rfl
@[simp] theorem State.withHostIn_slots (s : State) (l : List HostInput) : (s.withHostIn l).slots = s.slots := rfl
@[simp] theorem State.withHostIn_hostIn (s : State) (l : List HostInput) : (s.withHostIn l).hostIn = l := rfl
@[simp] theorem State.withHostIn_delivered (s : State) (l : List HostInput) :
    (s.withHostIn l).delivered = s.delivered := rfl

@[simp] theorem State.withFetchWord_config (s : State) (nbits w : Nat) :
    (s.withFetchWord nbits w).config = s.config := rfl
@[simp] theorem State.withFetchWord_count (s : State) (nbits w : Nat) :
    (s.withFetchWord nbits w).count = s.count := rfl
@[simp] theorem State.withFetchWord_slots (s : State) (nbits w : Nat) :
    (s.withFetchWord nbits w).slots = s.slots := rfl
@[simp] theorem State.withFetchWord_delivered (s : State) (nbits w : Nat) :
    (s.withFetchWord nbits w).delivered = s.delivered := rfl
@[simp] theorem State.withFetchWord_hostIn (s : State) (nbits w : Nat) :
    (s.withFetchWord nbits w).hostIn = .command (tableWord nbits w) :: s.hostIn := rfl

@[simp] theorem State.resetOf_config (cfg : Config) : (State.resetOf cfg).config = cfg := rfl
@[simp] theorem State.resetOf_count (cfg : Config) : (State.resetOf cfg).count = 0 := rfl
@[simp] theorem State.resetOf_slots (cfg : Config) : (State.resetOf cfg).slots = [] := rfl
@[simp] theorem State.resetOf_hostIn (cfg : Config) : (State.resetOf cfg).hostIn = [] := rfl
@[simp] theorem State.resetOf_delivered (cfg : Config) : (State.resetOf cfg).delivered = [] := rfl

/-- The beats delivered last are those of the response a command has just ended with. -/
@[simp] theorem State.lastBeats_respond (s : State) (r : Response) : (s.respond r).lastBeats = r.beats := by
  simp [State.lastBeats]

end Sys2Proof.Machine
end

