-- ==== Sys2Proof/Laws/Memory.lean ====
section
/-! SUPPORT. The slot array: a read after a write, the other slots, the canonical form, and what the two primitives of
20_memory.md R42 can answer. -/

namespace Sys2Proof.Machine

@[simp] theorem Memory.lookup_nil (i : Nat) : Memory.lookup i [] = none := rfl

theorem Memory.lookup_cons (i j : Nat) (w : FrameWord) (m : Memory) :
    Memory.lookup i ((j, w) :: m) = if j = i then some w else Memory.lookup i m := rfl

/-- A read of the slot just written gives the word written. -/
@[simp] theorem Memory.lookup_insert_self (i : Nat) (w : FrameWord) (m : Memory) :
    Memory.lookup i (Memory.insert i w m) = some w := by
  induction m with
  | nil => simp [Memory.insert, Memory.lookup_cons]
  | cons e m ih =>
    obtain ⟨j, v⟩ := e
    unfold Memory.insert
    split
    · simp [Memory.lookup_cons]
    · split
      · simp [Memory.lookup_cons]
      · next hij => rw [Memory.lookup_cons, if_neg (Ne.symm hij), ih]

/-- A write leaves every other slot alone. -/
theorem Memory.lookup_insert_ne {i j : Nat} (h : i ≠ j) (w : FrameWord) (m : Memory) :
    Memory.lookup i (Memory.insert j w m) = Memory.lookup i m := by
  induction m with
  | nil => simp [Memory.insert, Memory.lookup_cons, Ne.symm h]
  | cons e m ih =>
    obtain ⟨k, v⟩ := e
    unfold Memory.insert
    split
    · rw [Memory.lookup_cons, if_neg (Ne.symm h)]
    · split
      · next hjk => subst hjk; simp [Memory.lookup_cons, Ne.symm h]
      · rw [Memory.lookup_cons, Memory.lookup_cons, ih]

/-- The slots listed after a write: those listed before it, and the slot written. -/
theorem Memory.mem_keys_insert {i j : Nat} {w : FrameWord} {m : Memory} :
    j ∈ (Memory.insert i w m).map Prod.fst ↔ j = i ∨ j ∈ m.map Prod.fst := by
  induction m with
  | nil => simp [Memory.insert]
  | cons e m ih =>
    obtain ⟨k, v⟩ := e
    unfold Memory.insert
    split
    · simp
    · split
      · next hik => subst hik; simp
      · rw [List.map_cons, List.mem_cons, ih, List.map_cons, List.mem_cons]; tauto

theorem Memory.wf_nil (cfg : Config) : Memory.wf cfg [] := by simp [Memory.wf]

/-- A write inside the address space keeps the canonical form. -/
theorem Memory.wf_insert {cfg : Config} {i : Nat} {m : Memory} (w : FrameWord) (hi : i < cfg.cap) (h : Memory.wf cfg m) :
    Memory.wf cfg (Memory.insert i w m) := by
  refine ⟨?_, fun j hj => ?_⟩
  · have hm := h.1
    clear h
    induction m with
    | nil => simp [Memory.insert]
    | cons e m ih =>
      obtain ⟨k, v⟩ := e
      rw [List.map_cons, List.pairwise_cons] at hm
      unfold Memory.insert
      split
      · next hik =>
        rw [List.map_cons, List.map_cons, List.pairwise_cons, List.pairwise_cons]
        refine ⟨fun j hj => ?_, hm⟩
        rcases List.mem_cons.1 hj with rfl | hj
        · exact hik
        · exact lt_trans hik (hm.1 j hj)
      · split
        · next hik => subst hik; rw [List.map_cons, List.pairwise_cons]; exact hm
        · next hlt hne =>
          rw [List.map_cons, List.pairwise_cons]
          refine ⟨fun j hj => ?_, ih hm.2⟩
          rcases Memory.mem_keys_insert.1 hj with rfl | hj
          · exact lt_of_le_of_ne (not_lt.1 hlt) (Ne.symm hne)
          · exact hm.1 j hj
  · rcases Memory.mem_keys_insert.1 hj with rfl | hj
    · exact hi
    · exact h.2 j hj

/-- When `memWrite` answers, the slot is in the address space and the slots are those of the write. -/
theorem memWrite_ok {cfg : Config} {m m' : Memory} {i : Nat} {w : FrameWord} :
    memWrite cfg m i w = .ok m' ↔ i < cfg.cap ∧ m' = Memory.insert i w m := by
  unfold memWrite
  split <;> simp_all [eq_comm]

theorem memWrite_of_lt {cfg : Config} {i : Nat} (h : i < cfg.cap) (m : Memory) (w : FrameWord) :
    memWrite cfg m i w = .ok (Memory.insert i w m) := memWrite_ok.2 ⟨h, rfl⟩

/-- `memWrite` keeps the canonical form. -/
theorem memWrite_wf {cfg : Config} {m m' : Memory} {i : Nat} {w : FrameWord} (hm : Memory.wf cfg m)
    (h : memWrite cfg m i w = .ok m') : Memory.wf cfg m' := by
  obtain ⟨hi, rfl⟩ := memWrite_ok.1 h
  exact Memory.wf_insert w hi hm

/-- When `memRead` answers, the slot is in the address space and holds the word. -/
theorem memRead_ok {cfg : Config} {m : Memory} {i : Nat} {w : FrameWord} :
    memRead cfg m i = .ok w ↔ i < cfg.cap ∧ Memory.lookup i m = some w := by
  unfold memRead
  split
  · cases h : Memory.lookup i m <;> simp_all
  · simp_all

/-- When a slot reads, it is in the address space and holds the word. -/
theorem State.readSlot_ok {s : State} {i : Nat} {w : FrameWord} :
    s.readSlot i = .ok w ↔ i < s.config.cap ∧ Memory.lookup i s.slots = some w := memRead_ok

/-- What the slots read as speaks of the configuration and the slots alone. -/
theorem State.readSlot_congr {s t : State} (hg : t.config = s.config) (hm : t.slots = s.slots) (i : Nat) :
    t.readSlot i = s.readSlot i := by
  simp only [State.readSlot, hg, hm]

@[simp] theorem State.readSlot_respond (s : State) (r : Response) (i : Nat) :
    (s.respond r).readSlot i = s.readSlot i := rfl
@[simp] theorem State.readSlot_raise (s : State) (e : Status) (i : Nat) : (s.raise e).readSlot i = s.readSlot i := rfl
@[simp] theorem State.readSlot_returnOk (s : State) (bs : List FrameWord) (i : Nat) :
    (s.returnOk bs).readSlot i = s.readSlot i := rfl
@[simp] theorem State.readSlot_clearCount (s : State) (i : Nat) : s.clearCount.readSlot i = s.readSlot i := rfl
@[simp] theorem State.readSlot_withHostIn (s : State) (l : List HostInput) (i : Nat) :
    (s.withHostIn l).readSlot i = s.readSlot i := rfl

/-- ENQUEUE's write is read back from the slot it is given. -/
theorem State.readSlot_appended_self {s : State} {i : Nat} (hi : i < s.config.cap) (w : FrameWord) :
    (s.appended (Memory.insert i w s.slots)).readSlot i = .ok w :=
  State.readSlot_ok.2 ⟨hi, Memory.lookup_insert_self i w s.slots⟩

/-- ENQUEUE's write leaves every other slot alone. -/
theorem State.readSlot_appended_ne {s : State} {i j : Nat} (h : j ≠ i) (w : FrameWord) :
    (s.appended (Memory.insert i w s.slots)).readSlot j = s.readSlot j := by
  simp only [State.readSlot, memRead, State.appended_config, State.appended_slots, Memory.lookup_insert_ne h]

/-- The slot array of the reset state has the canonical form. -/
theorem State.reset_slots_wf : Memory.wf State.reset.config State.reset.slots := Memory.wf_nil _

end Sys2Proof.Machine
end

