-- ==== Sys2Proof/Laws/Exec.lean ====
section
/-! SUPPORT. What each shared operation and each meaning can answer, said once: later proofs cite these. -/

namespace Sys2Proof.Machine

/-- `buildError` finds nothing exactly where none of the three conditions of 60_exceptions.md R130 holds. -/
theorem buildError_none {ext : IdKind} {idIn : BitVec 32} {lenIn : BitVec 8} {payCount : BitVec 4} :
    buildError ext idIn lenIn payCount = none ↔
      lenIn.toNat ≤ Config.maxDlc ∧ idIn.toNat < 2 ^ idWidth ext ∧ lenIn.toNat ≤ payCount.toNat := by
  unfold buildError
  split
  · simp_all
  · split
    · simp_all
    · split <;> simp_all

/-- The errors `buildError` can report (60_exceptions.md R139). -/
theorem buildError_some {ext : IdKind} {idIn : BitVec 32} {lenIn : BitVec 8} {payCount : BitVec 4} {e : Status}
    (h : buildError ext idIn lenIn payCount = some e) :
    e = .invalidLength ∨ e = .identifierOutOfRange ∨ e = .payloadTooShort := by
  unfold buildError at h
  split at h
  · injection h with h; exact .inl h.symm
  · split at h
    · injection h with h; exact .inr (.inl h.symm)
    · split at h
      · injection h with h; exact .inr (.inr h.symm)
      · cases h

/-- BUILD's response: one of its three errors, or the one frame word. -/
theorem buildResponse_cases (ext : IdKind) (idIn : BitVec 32) (lenIn : BitVec 8) (payCount : BitVec 4)
    (payIn : BitVec 64) :
    (∃ e, buildError ext idIn lenIn payCount = some e ∧ buildResponse ext idIn lenIn payCount payIn = .raised e) ∨
      (buildError ext idIn lenIn payCount = none ∧
        buildResponse ext idIn lenIn payCount payIn = .okBeats [buildFrame ext idIn lenIn payIn]) := by
  unfold buildResponse
  cases h : buildError ext idIn lenIn payCount with
  | none => exact .inr ⟨rfl, rfl⟩
  | some e => exact .inl ⟨e, rfl, rfl⟩

/-- RENDER's response: the rendering word, or the refusal of a malformed operand. -/
theorem renderResponse_cases (w : FrameWord) :
    (FrameWF w ∧ renderResponse w = .okBeats [rend w]) ∨ (¬ FrameWF w ∧ renderResponse w = .raised .malformedFrame) := by
  unfold renderResponse
  split
  · next h => exact .inl ⟨h, rfl⟩
  · next h => exact .inr ⟨h, rfl⟩

/-- When DRAIN's loop answers, it has one beat per slot, each the rendering of a well-formed word read. -/
theorem drainFrom_ok {cfg : Config} {m : Memory} {n i : Nat} {beats : List FrameWord}
    (h : drainFrom cfg m i n = .ok beats) :
    beats.length = n ∧
      ∀ k < n, ∃ w, memRead cfg m (i + k) = .ok w ∧ FrameWF w ∧ beats[k]? = some (rend w) := by
  induction n generalizing i beats with
  | zero => simp [drainFrom] at h; subst h; simp
  | succ n ih =>
    unfold drainFrom at h
    split at h
    · simp at h
    · next w hr =>
      split at h
      · next hw =>
        split at h
        · simp at h
        · next bs hbs =>
          simp at h; subst h
          obtain ⟨hl, hk⟩ := ih hbs
          refine ⟨by simp [hl], fun k hkn => ?_⟩
          cases k with
          | zero => exact ⟨w, by simpa using hr, hw, by simp⟩
          | succ k =>
            obtain ⟨v, hv⟩ := hk k (by omega)
            exact ⟨v, by rw [show i + (k + 1) = i + 1 + k by omega]; exact hv.1, hv.2.1, by simpa using hv.2.2⟩
      · simp at h

/-- DRAIN's loop answers where every slot it reads exists and holds a well-formed word. -/
theorem drainFrom_total {cfg : Config} {m : Memory} {n i : Nat}
    (h : ∀ k < n, ∃ w, memRead cfg m (i + k) = .ok w ∧ FrameWF w) : ∃ beats, drainFrom cfg m i n = .ok beats := by
  induction n generalizing i with
  | zero => exact ⟨[], rfl⟩
  | succ n ih =>
    obtain ⟨w, hr, hw⟩ := h 0 (by omega)
    obtain ⟨bs, hbs⟩ := ih (i := i + 1) fun k hk => by
      obtain ⟨v, hv⟩ := h (k + 1) (by omega)
      exact ⟨v, by rw [show i + 1 + k = i + (k + 1) by omega]; exact hv⟩
    rw [Nat.add_zero] at hr
    exact ⟨rend w :: bs, by simp [drainFrom, hr, hw, hbs]⟩

/-- Everything ENQUEUE can answer with a next state (41_busqueue.md R114, R115, R116). -/
theorem execEnqueue_next {w : FrameWord} {s t : State} (h : execEnqueue w s = .next t) :
    (¬ FrameWF w ∧ t = s.raise .malformedFrame) ∨
      (FrameWF w ∧ s.count = s.config.cap ∧ t = s.raise .busFull) ∨
      (FrameWF w ∧ s.count < s.config.cap ∧
        t = (s.appended (Memory.insert s.count w s.slots)).returnOk []) := by
  unfold execEnqueue at h
  split at h
  · next hw =>
    split at h
    · next hc => injection h with h; exact .inr (.inl ⟨hw, hc, h.symm⟩)
    · split at h
      · next m hm =>
        obtain ⟨hlt, rfl⟩ := memWrite_ok.1 hm
        injection h with h
        exact .inr (.inr ⟨hw, hlt, h.symm⟩)
      · cases h
  · next hw => injection h with h; exact .inl ⟨hw, h.symm⟩

/-- ENQUEUE of a well-formed word with room (41_busqueue.md R114). -/
theorem execEnqueue_room {w : FrameWord} {s : State} (hw : FrameWF w) (hc : s.count < s.config.cap) :
    execEnqueue w s = .next ((s.appended (Memory.insert s.count w s.slots)).returnOk []) := by
  rw [execEnqueue, if_pos hw, if_neg (Nat.ne_of_lt hc), memWrite_of_lt hc]

/-- Everything DRAIN can answer with a next state (41_busqueue.md R117). -/
theorem execDrain_next {s t : State} (h : execDrain s = .next t) :
    ∃ beats, drainFrom s.config s.slots 0 s.count = .ok beats ∧ t = s.returnOk beats := by
  unfold execDrain at h
  split at h
  · next beats hb => injection h with h; exact ⟨beats, hb, h.symm⟩
  · cases h

/-- Everything a command can answer with a next state: its response alone, CREATE's clearing, or ENQUEUE's append. -/
theorem exec_next {i : Instr} {s t : State} (h : exec i s = .next t) :
    (∃ r, t = s.respond r) ∨ (i = .create ∧ t = s.clearCount.returnOk []) ∨
      ∃ w, i = .enqueue w ∧ FrameWF w ∧ s.count < s.config.cap ∧
        t = (s.appended (Memory.insert s.count w s.slots)).returnOk [] := by
  cases i with
  | build ext idIn lenIn payCount payIn =>
    injection (show execBuild ext idIn lenIn payCount payIn s = .next t from h) with h
    exact .inl ⟨_, h.symm⟩
  | render w =>
    injection (show execRender w s = .next t from h) with h
    exact .inl ⟨_, h.symm⟩
  | create =>
    injection (show execCreate s = .next t from h) with h
    exact .inr (.inl ⟨rfl, h.symm⟩)
  | enqueue w =>
    rcases execEnqueue_next h with ⟨_, ht⟩ | ⟨_, _, ht⟩ | ⟨hw, hc, ht⟩
    · exact .inl ⟨_, ht⟩
    · exact .inl ⟨_, ht⟩
    · exact .inr (.inr ⟨w, rfl, hw, hc, ht⟩)
  | drain =>
    obtain ⟨beats, _, ht⟩ := execDrain_next h
    exact .inl ⟨_, ht⟩

/-- Everything a step can answer with a next state, by the host's next input. -/
theorem step_next {s t : State} (h : step s = .next t) :
    (s.hostIn = [] ∧ t = s) ∨
      (∃ c rest, s.hostIn = .command c :: rest ∧ runCommand c (s.withHostIn rest) = .next t) ∨
      (∃ rest, s.hostIn = .reset :: rest ∧ t = (s.withHostIn rest).takeReset) ∨
      ∃ c n rest u, s.hostIn = .resetDuring c n :: rest ∧ runCommand c (s.withHostIn rest) = .next u ∧
        t = (s.withHostIn rest).abandon u n := by
  unfold step at h
  split at h
  · next hh => injection h with h; exact .inl ⟨hh, h.symm⟩
  · next c rest hh => exact .inr (.inl ⟨c, rest, hh, h⟩)
  · next rest hh => injection h with h; exact .inr (.inr (.inl ⟨rest, hh, h.symm⟩))
  · next c n rest hh =>
    split at h
    · next u hu => injection h with h; exact .inr (.inr (.inr ⟨c, n, rest, u, hh, hu, h.symm⟩))
    · cases h
    · cases h

/-- Everything a command word can answer with a next state. -/
theorem runCommand_next {c : CommandWord} {s t : State} (h : runCommand c s = .next t) :
    (∃ i, decode c = .ok i ∧ exec i s = .next t) ∨
      ∃ e, decode c = .error e ∧ t = s.raise .illegalCommand := by
  unfold runCommand at h
  split at h
  · next i hi => exact .inl ⟨i, hi, h⟩
  · next e he => injection h with h; exact .inr ⟨e, he, h.symm⟩

end Sys2Proof.Machine
end

