-- ==== Sys2Proof/Laws/Operands.lean ====
section
/-! SUPPORT. The fields of a word laid out field by field, the bytes of a payload field laid out byte by byte, and the
fields of a rendering word. -/

namespace Sys2Proof.Machine

section Fields
variable (sof ide : BitVec 1) (id : BitVec 29) (rtr : BitVec 1) (dlc : BitVec 4) (data : BitVec 64)
  (crc : BitVec 15) (ack : BitVec 2) (eof : BitVec 7)

/-- A slice of a word laid out field by field, over the sum of the widths: the lemmas on appended words then apply. -/
theorem extractLsb'_frameWord (lo len : Nat) :
    (frameWord sof ide id rtr dlc data crc ack eof).extractLsb' lo len =
      BitVec.extractLsb' (n := 1 + 1 + 29 + 1 + 4 + 64 + 15 + 2 + 7) lo len
        (sof ++ ide ++ id ++ rtr ++ dlc ++ data ++ crc ++ ack ++ eof) := rfl

@[simp] theorem eofField_frameWord :
    eofField (frameWord sof ide id rtr dlc data crc ack eof) = eof := by
  rw [eofField, BitVec.extractLsb, extractLsb'_frameWord,
    BitVec.extractLsb'_append_eq_of_add_le (by decide)]
  simp

@[simp] theorem ackField_frameWord :
    ackField (frameWord sof ide id rtr dlc data crc ack eof) = ack := by
  rw [ackField, BitVec.extractLsb, extractLsb'_frameWord,
    BitVec.extractLsb'_append_eq_of_le (by decide),
    BitVec.extractLsb'_append_eq_of_add_le (by decide)]
  simp

@[simp] theorem crcField_frameWord :
    crcField (frameWord sof ide id rtr dlc data crc ack eof) = crc := by
  rw [crcField, BitVec.extractLsb, extractLsb'_frameWord,
    BitVec.extractLsb'_append_eq_of_le (by decide),
    BitVec.extractLsb'_append_eq_of_le (by decide),
    BitVec.extractLsb'_append_eq_of_add_le (by decide)]
  simp

@[simp] theorem dataField_frameWord :
    dataField (frameWord sof ide id rtr dlc data crc ack eof) = data := by
  rw [dataField, BitVec.extractLsb, extractLsb'_frameWord,
    BitVec.extractLsb'_append_eq_of_le (by decide),
    BitVec.extractLsb'_append_eq_of_le (by decide),
    BitVec.extractLsb'_append_eq_of_le (by decide),
    BitVec.extractLsb'_append_eq_of_add_le (by decide)]
  simp

@[simp] theorem dlcField_frameWord :
    dlcField (frameWord sof ide id rtr dlc data crc ack eof) = dlc := by
  rw [dlcField, BitVec.extractLsb, extractLsb'_frameWord,
    BitVec.extractLsb'_append_eq_of_le (by decide),
    BitVec.extractLsb'_append_eq_of_le (by decide),
    BitVec.extractLsb'_append_eq_of_le (by decide),
    BitVec.extractLsb'_append_eq_of_le (by decide),
    BitVec.extractLsb'_append_eq_of_add_le (by decide)]
  simp

@[simp] theorem rtrField_frameWord :
    rtrField (frameWord sof ide id rtr dlc data crc ack eof) = rtr := by
  rw [rtrField, BitVec.extractLsb, extractLsb'_frameWord,
    BitVec.extractLsb'_append_eq_of_le (by decide),
    BitVec.extractLsb'_append_eq_of_le (by decide),
    BitVec.extractLsb'_append_eq_of_le (by decide),
    BitVec.extractLsb'_append_eq_of_le (by decide),
    BitVec.extractLsb'_append_eq_of_le (by decide),
    BitVec.extractLsb'_append_eq_of_add_le (by decide)]
  simp

@[simp] theorem idField_frameWord :
    idField (frameWord sof ide id rtr dlc data crc ack eof) = id := by
  rw [idField, BitVec.extractLsb, extractLsb'_frameWord,
    BitVec.extractLsb'_append_eq_of_le (by decide),
    BitVec.extractLsb'_append_eq_of_le (by decide),
    BitVec.extractLsb'_append_eq_of_le (by decide),
    BitVec.extractLsb'_append_eq_of_le (by decide),
    BitVec.extractLsb'_append_eq_of_le (by decide),
    BitVec.extractLsb'_append_eq_of_le (by decide),
    BitVec.extractLsb'_append_eq_of_add_le (by decide)]
  simp

@[simp] theorem ideField_frameWord :
    ideField (frameWord sof ide id rtr dlc data crc ack eof) = ide := by
  rw [ideField, BitVec.extractLsb, extractLsb'_frameWord,
    BitVec.extractLsb'_append_eq_of_le (by decide),
    BitVec.extractLsb'_append_eq_of_le (by decide),
    BitVec.extractLsb'_append_eq_of_le (by decide),
    BitVec.extractLsb'_append_eq_of_le (by decide),
    BitVec.extractLsb'_append_eq_of_le (by decide),
    BitVec.extractLsb'_append_eq_of_le (by decide),
    BitVec.extractLsb'_append_eq_of_le (by decide),
    BitVec.extractLsb'_append_eq_of_add_le (by decide)]
  simp

@[simp] theorem sofField_frameWord :
    sofField (frameWord sof ide id rtr dlc data crc ack eof) = sof := by
  rw [sofField, BitVec.extractLsb, extractLsb'_frameWord,
    BitVec.extractLsb'_append_eq_of_le (by decide),
    BitVec.extractLsb'_append_eq_of_le (by decide),
    BitVec.extractLsb'_append_eq_of_le (by decide),
    BitVec.extractLsb'_append_eq_of_le (by decide),
    BitVec.extractLsb'_append_eq_of_le (by decide),
    BitVec.extractLsb'_append_eq_of_le (by decide),
    BitVec.extractLsb'_append_eq_of_le (by decide),
    BitVec.extractLsb'_append_eq_of_le (by decide)]
  simp

end Fields

/-- A word is its nine fields side by side (30_encoding.md R62). -/
theorem frameWord_fields (w : FrameWord) :
    frameWord (sofField w) (ideField w) (idField w) (rtrField w) (dlcField w) (dataField w) (crcField w)
      (ackField w) (eofField w) = w := by
  simp only [frameWord, sofField, ideField, idField, rtrField, dlcField, dataField, crcField, ackField, eofField,
    BitVec.extractLsb]
  repeat rw [BitVec.extractLsb'_append_extractLsb'_eq_extractLsb' (by decide)]
  exact BitVec.extractLsb'_eq_self

/-- Byte `k` of eight bytes side by side. -/
@[simp] theorem byteAt_joinBytes (d : Fin 8 → Byte) (k : Fin 8) : byteAt (joinBytes d) k = d k := by
  have h (lo : Nat) : (joinBytes d).extractLsb' lo 8 =
      BitVec.extractLsb' (n := 8 + 8 + 8 + 8 + 8 + 8 + 8 + 8) lo 8
        (d 0 ++ d 1 ++ d 2 ++ d 3 ++ d 4 ++ d 5 ++ d 6 ++ d 7) := rfl
  rw [byteAt, h]
  fin_cases k
  all_goals repeat rw [BitVec.extractLsb'_append_eq_of_le (by decide)]
  · simp
  all_goals
    rw [BitVec.extractLsb'_append_eq_of_add_le (by decide)]
    simp

/-- A payload field is its eight bytes side by side. -/
@[simp] theorem joinBytes_byteAt (p : BitVec 64) : joinBytes (byteAt p) = p := by
  simp only [joinBytes, byteAt]
  repeat rw [BitVec.extractLsb'_append_extractLsb'_eq_extractLsb' (by decide)]
  exact BitVec.extractLsb'_eq_self

/-- Two payload fields with the same bytes are the same. -/
theorem byteAt_ext {p q : BitVec 64} (h : ∀ k, byteAt p k = byteAt q k) : p = q := by
  rw [← joinBytes_byteAt p, ← joinBytes_byteAt q, funext h]

/-- Byte `k` of the first `n` bytes. -/
@[simp] theorem byteAt_keepBytes (n : Nat) (p : BitVec 64) (k : Fin 8) :
    byteAt (keepBytes n p) k = if k.val < n then byteAt p k else 0#8 := by
  rw [keepBytes, byteAt_joinBytes]

/-- A slice of a slice is a slice. -/
theorem extractLsb'_slice {n : Nat} (w : BitVec n) (lo len a b : Nat) (h : a + b ≤ len) :
    (w.extractLsb' lo len).extractLsb' a b = w.extractLsb' (lo + a) b := by
  ext i hi
  simp [show a + i < len by omega, Nat.add_assoc]

/-- The bytes of a frame word's payload are slices of the word (30_encoding.md R62). -/
theorem byteAt_dataField (w : FrameWord) (k : Fin 8) :
    byteAt (dataField w) k = w.extractLsb' (80 - 8 * k.val) 8 := by
  have hk := k.isLt
  rw [byteAt, dataField, BitVec.extractLsb, extractLsb'_slice _ _ _ _ _ (by omega)]
  congr 1
  omega

@[simp] theorem sofField_rend (w : FrameWord) : sofField (rend w) = sofField w := by simp [rend]
@[simp] theorem ideField_rend (w : FrameWord) : ideField (rend w) = ideField w := by simp [rend]
@[simp] theorem idField_rend (w : FrameWord) : idField (rend w) = idField w := by simp [rend]
@[simp] theorem rtrField_rend (w : FrameWord) : rtrField (rend w) = 0#1 := by simp [rend]
@[simp] theorem dlcField_rend (w : FrameWord) : dlcField (rend w) = dlcField w := by simp [rend]
@[simp] theorem dataField_rend (w : FrameWord) :
    dataField (rend w) = keepBytes (dlcField w).toNat (dataField w) := by simp [rend]
@[simp] theorem crcField_rend (w : FrameWord) : crcField (rend w) = crcField w := by simp [rend]
@[simp] theorem ackField_rend (w : FrameWord) : ackField (rend w) = ackField w := by simp [rend]
@[simp] theorem eofField_rend (w : FrameWord) : eofField (rend w) = eofField w := by simp [rend]

/-- Two words with the same nine fields are the same. -/
theorem frameWord_ext {w v : FrameWord} (h1 : sofField w = sofField v) (h2 : ideField w = ideField v)
    (h3 : idField w = idField v) (h4 : rtrField w = rtrField v) (h5 : dlcField w = dlcField v)
    (h6 : dataField w = dataField v) (h7 : crcField w = crcField v) (h8 : ackField w = ackField v)
    (h9 : eofField w = eofField v) : w = v := by
  rw [← frameWord_fields w, ← frameWord_fields v, h1, h2, h3, h4, h5, h6, h7, h8, h9]

/-- The upper 18 bits of the identifier are those of its field. -/
theorem upperId_eq (w : FrameWord) : w.extractLsb 121 104 = (idField w).extractLsb' 11 18 := by
  rw [idField, BitVec.extractLsb, BitVec.extractLsb, extractLsb'_slice _ _ _ _ _ (by decide)]

/-- The low 24 bits are the three placeholder fields. -/
theorem low24_eq (w : FrameWord) : w.extractLsb 23 0 = crcField w ++ ackField w ++ eofField w := by
  simp only [crcField, ackField, eofField, BitVec.extractLsb]
  repeat rw [BitVec.extractLsb'_append_extractLsb'_eq_extractLsb' (by decide)]

end Sys2Proof.Machine
end

