-- ==== Sys2Proof/Laws/PerInstr.lean ====
section
/-! SUPPORT. Per-instruction family `TableRow`: the word the encoder gives a command selects the command's row of the
opcode table, by that row's own `match` and `mask` (30_encoding.md R78). -/

namespace Sys2Proof.Laws.TableRow

/-- The encoded word selects the row of its mnemonic. -/
def Statement (i : Instr) : Prop :=
  ∃ r ∈ opcodeTable, r.mnemonic = i.mnemonic ∧ encode i &&& r.mask = r.value

/-- A mask on the opcode alone keeps the opcode. -/
theorem opcode_mask (op : BitVec 4) (w : BitVec 124) :
    (op ++ w : CommandWord) &&& (0xF#4 ++ 0#124 : CommandWord) = (op ++ 0#124 : CommandWord) := by
  rw [BitVec.and_append, BitVec.and_zero, show op &&& 0xF#4 = op from BitVec.and_allOnes]

theorem build (ext : IdKind) (idIn : BitVec 32) (lenIn : BitVec 8) (payCount : BitVec 4) (payIn : BitVec 64) :
    Statement (.build ext idIn lenIn payCount payIn) := by
  refine ⟨_, List.mem_cons_self .., rfl, ?_⟩
  change (1#4 ++ ext.tag ++ idIn ++ lenIn ++ payCount ++ payIn ++ 0#15 : CommandWord) &&&
    (0xF#4 ++ 0#1 ++ 0#32 ++ 0#8 ++ 0#4 ++ 0#64 ++ 0x7FFF#15 : CommandWord) = _
  simp only [BitVec.and_append, BitVec.and_zero, BitVec.zero_and]
  decide

theorem render (frame : FrameWord) : Statement (.render frame) :=
  ⟨_, .tail _ (.head _), rfl, opcode_mask 2#4 frame⟩

theorem create : Statement .create :=
  ⟨_, .tail _ (.tail _ (.head _)), rfl, by decide⟩

theorem enqueue (frame : FrameWord) : Statement (.enqueue frame) :=
  ⟨_, .tail _ (.tail _ (.tail _ (.head _))), rfl, opcode_mask 4#4 frame⟩

theorem drain : Statement .drain :=
  ⟨_, .tail _ (.tail _ (.tail _ (.tail _ (.head _)))), rfl, by decide⟩

end Sys2Proof.Laws.TableRow
end

