-- ==== Sys2Proof/Laws/Run.lean ====
section
/-! SUPPORT. Runs: one step at a time. -/

namespace Sys2Proof.Machine

theorem run_zero (s : State) : Sys2Proof.core.run 0 s = .next s := rfl

/-- A run whose first step gives `t` goes on from `t`. -/
theorem run_succ {s t : State} (n : Nat) (h : step s = .next t) :
    Sys2Proof.core.run (n + 1) s = Sys2Proof.core.run n t := by
  have h' : Sys2Proof.core.step s = .next t := h
  simp only [Host.Core.run, h']

/-- The invariant speaks of the configuration, `count` and the slots alone. -/
theorem State.Inv.congr {s t : State} (h : s.Inv) (hg : t.config = s.config) (hc : t.count = s.count)
    (hm : t.slots = s.slots) : t.Inv := by
  rw [State.Inv, hg, hc, hm]
  exact h

/-- The reset state of every admissible configuration meets the invariant. -/
theorem State.resetOf_inv {cfg : Config} (h : 1 ≤ cfg.cap) : (State.resetOf cfg).Inv :=
  ⟨h, Memory.wf_nil cfg, Nat.zero_le _, fun _ hi => absurd hi (Nat.not_lt_zero _)⟩

/-- A slot that holds a well-formed word. -/
theorem storedFrame_iff {m : Memory} {i : Nat} :
    StoredFrame m i ↔ ∃ w, Memory.lookup i m = some w ∧ FrameWF w := by
  rw [StoredFrame, Option.any_eq_true]
  constructor
  · rintro ⟨w, hw, hf⟩; exact ⟨w, hw, of_decide_eq_true hf⟩
  · rintro ⟨w, hw, hf⟩; exact ⟨w, hw, decide_eq_true hf⟩

end Sys2Proof.Machine
end

