-- ==== Sys2Proof/Laws/Queue.lean ====
section
/-! SUPPORT. The list view of the state: what DRAIN reads of it, and what ENQUEUE's append does to it. -/

namespace Sys2Proof.Machine

/-- The list view with `count` 0 is empty. -/
theorem State.queue_of_count_zero {s : State} (h : s.count = 0) : s.queue = [] := by
  simp [State.queue, h]

/-- The list view speaks of `count` and the slots alone. -/
theorem State.queue_congr {s t : State} (hc : t.count = s.count) (hm : t.slots = s.slots) : t.queue = s.queue := by
  simp only [State.queue, hc, hm]

/-- DRAIN's loop over slots that all hold well-formed words renders exactly the words listed there. -/
theorem drainFrom_listed {cfg : Config} {m : Memory} {n i : Nat}
    (h : ∀ k < n, ∃ w, memRead cfg m (i + k) = .ok w ∧ FrameWF w) :
    drainFrom cfg m i n = .ok (((List.range' i n).filterMap (fun j => Memory.lookup j m)).map rend) ∧
      ((List.range' i n).filterMap (fun j => Memory.lookup j m)).length = n := by
  induction n generalizing i with
  | zero => simp [drainFrom]
  | succ n ih =>
    obtain ⟨w, hr, hw⟩ := h 0 (by omega)
    obtain ⟨h1, h2⟩ := ih (i := i + 1) fun k hk => by
      have hk' := h (k + 1) (by omega)
      rwa [show i + (k + 1) = i + 1 + k by omega] at hk'
    rw [Nat.add_zero] at hr
    have hl := (memRead_ok.1 hr).2
    rw [drainFrom, hr]
    simp only []
    rw [if_pos hw]
    simp only [h1, List.range'_succ, List.filterMap_cons, hl, List.map_cons, List.length_cons, h2]
    exact ⟨trivial, trivial⟩

/-- In a state that meets the invariant DRAIN's loop renders the list view, which has `count` words. -/
theorem drainFrom_queue {s : State} (h : s.Inv) :
    drainFrom s.config s.slots 0 s.count = .ok (s.queue.map rend) ∧ s.queue.length = s.count := by
  rw [State.queue, List.range_eq_range']
  refine drainFrom_listed fun k hk => ?_
  obtain ⟨w, hw, hf⟩ := storedFrame_iff.1 (h.2.2.2 k hk)
  exact ⟨w, memRead_ok.2 ⟨by have := h.2.2.1; omega, by rwa [Nat.zero_add]⟩, hf⟩

/-- ENQUEUE's write and increment append the word to the list view (41_busqueue.md R110). -/
theorem State.queue_appended (s : State) (w : FrameWord) :
    (s.appended (Memory.insert s.count w s.slots)).queue = s.queue ++ [w] := by
  simp only [State.queue, State.appended_count, State.appended_slots, List.range_succ,
    List.filterMap_append]
  congr 1
  · refine List.filterMap_congr fun i hi => ?_
    exact Memory.lookup_insert_ne (Nat.ne_of_lt (List.mem_range.1 hi)) w s.slots
  · simp

end Sys2Proof.Machine
end

