-- ==== Sys2Proof/Tests/Slice0.lean ====
section
/-! SUPPORT. Tests of the model against 95_test_vectors.md (each names its row), the smoke tests of WellFormed, and a
witness for the hypotheses of every statement of Certificates/Slice0/Obligations.lean that has any. -/

namespace Sys2Proof.Tests

open Sys2Proof.Machine

/-- `A` of 95_test_vectors.md. -/
def frameA : FrameWord := 0x000002464DEADBEEF0000000000007F
/-- `C` of 95_test_vectors.md. -/
def frameC : FrameWord := 0x43579BDE0000000000000000000007F
/-- `X` of 95_test_vectors.md: well-formed, not built. -/
def frameX : FrameWord := 0xC3579BDF31122334455667788246955
/-- `X` with other hidden bits: `rtr` 0 and other bytes beyond `dlc` 3. -/
def frameX' : FrameWord := 0xC3579BDE3112233AAAAAAAAAA246955
/-- `M1` of 95_test_vectors.md: `dlc` 9. -/
def frameM1 : FrameWord := 0x000002469000000000000000000007F
/-- `M2` of 95_test_vectors.md: Standard with id bit 11 set. -/
def frameM2 : FrameWord := 0x000010000000000000000000000007F
/-- The beat of B4: `dlc` 8, Standard 0x7FF. -/
def frameB4 : FrameWord := 0x00000FFE8010203040506070800007F

/-- A queue of `n` copies of `A` in a block of the given capacity, the host presenting `inputs`. -/
def filledIn (cap n : Nat) (inputs : List HostInput) : State :=
  ⟨⟨cap⟩, n, (List.range n).map (fun i => (i, frameA)), inputs, []⟩

/-- A queue of `n` copies of `A` in this hardware. -/
def filled (n : Nat) (inputs : List HostInput) : State := filledIn 100 n inputs

/-- A queue of the given words in this hardware. -/
def holding (ws : List FrameWord) (inputs : List HostInput) : State :=
  ⟨Config.hardware, ws.length, ws.zipIdx.map (fun p => (p.2, p.1)), inputs, []⟩

/-- The next state, if there is one. -/
def answer (o : Host.Outcome State Fault Refusal) : Option State :=
  match o with
  | .next t => some t
  | .fault _ => none
  | .refused _ => none

/-- The response a command word gets in a state. -/
def response (s : State) (c : CommandWord) : Option Delivery :=
  (answer (runCommand c s)).bind (fun t => t.delivered.getLast?)

/-! ## WellFormed: an ill-formed line for each check -/

theorem test_wellFormed_accepts : (AsmLine.build .standard 0x123 4 [0xDE, 0xAD, 0xBE, 0xEF]).wellFormed = true := by decide
theorem test_wellFormed_refuses_id : (AsmLine.build .extended (2 ^ 32) 0 []).wellFormed = false := by decide
theorem test_wellFormed_refuses_len : (AsmLine.build .standard 0 256 []).wellFormed = false := by decide

/-! ## Encodings, the words written out from 30_encoding.md R61 and R62 -/

/-- 95_test_vectors.md B1, field by field. -/
theorem test_decode_build : decode (0b0001#4 ++ 0b0#1 ++ 0x00000123#32 ++ 0x04#8 ++ 0x4#4 ++ 0xDEADBEEF00000000#64 ++ 0#15) =
    .ok (.build .standard 0x123 4 4 0xDEADBEEF00000000) := by decide
/-- 95_test_vectors.md B3: the Extended tag. -/
theorem test_decode_build_extended : decode 0x180D5E6F780000000000000000000000 = .ok (.build .extended 0x1ABCDEF 0 0 0) := by decide
theorem test_decode_render : decode (0b0010#4 ++ frameX) = .ok (.render frameX) := by decide
theorem test_decode_create : decode (0b0011#4 ++ 0#124) = .ok .create := by decide
theorem test_decode_enqueue : decode (0b0100#4 ++ frameA) = .ok (.enqueue frameA) := by decide
theorem test_decode_drain : decode (0b0101#4 ++ 0#124) = .ok .drain := by decide
/-- 95_test_vectors.md E10, Q14, Q15, Q16, Q17, Q18. -/
theorem test_decode_illegal :
    decode 0x1000000918226F56DF77800000000001 = .error .buildReserved ∧
    decode 0x30000000000000000000000000000001 = .error .createReserved ∧
    decode 0x50000000000000000000000000000001 = .error .drainReserved ∧
    decode 0x00000000000000000000000000000000 = .error (.opcode 0) ∧
    decode 0x60000000000000000000000000000000 = .error (.opcode 6) ∧
    decode 0xF0000000000000000000000000000000 = .error (.opcode 15) := by decide
/-- 95_test_vectors.md B9 and B10: the saturated and the larger `pay_count`. -/
theorem test_assemble_long_payload :
    assemble (.build .standard 0x123 4 [0xDE, 0xAD, 0xBE, 0xEF, 0x11, 0x22, 0x33, 0x44, 0, 0, 0, 0, 0, 0, 0, 0]) =
      some 0x100000091827EF56DF77889119A20000 ∧
    assemble (.build .standard 5 8 [1, 2, 3, 4, 5, 6, 7, 8, 9, 10, 11, 12]) =
      some 0x10000000284600810182028303840000 := by decide
/-- 95_test_vectors.md, round trip of `A`, and `unpack(M1)`. -/
theorem test_unpack :
    unpack frameA = some ⟨0, .standard 0x123, 0, 4, #v[0xDE, 0xAD, 0xBE, 0xEF, 0, 0, 0, 0], 0, 0, 0x7F⟩ ∧
    unpack frameM1 = none := by decide

/-! ## One step of each command -/

/-- 95_test_vectors.md E9c: `pay_in` bytes at `len_in` and above are ignored. -/
theorem test_build_ignores_stray_bytes :
    response State.reset 0x1000000918116F56DF77800000000000 =
      some (.completed ⟨.ok, [0x000002462DEAD00000000000000007F]⟩) := by decide
/-- 95_test_vectors.md E5, E6: the first error that holds. -/
theorem test_build_priority :
    response State.reset 0x17FFFFFFF84800000000000000000000 = some (.completed ⟨.invalidLength, []⟩) ∧
    response State.reset 0x10000040002000000000000000000000 = some (.completed ⟨.identifierOutOfRange, []⟩) := by decide
/-- 95_test_vectors.md R4: `rtr` and the bytes beyond `dlc` are not shown. -/
theorem test_render_hides :
    response State.reset 0x2C3579BDF31122334455667788246955 =
      some (.completed ⟨.ok, [0xC3579BDE31122330000000000246955]⟩) := by decide
/-- 95_test_vectors.md R6, R8: the same id bits, refused under ide 0 and shown under ide 1. -/
theorem test_render_malformed :
    response State.reset 0x2000010000000000000000000000007F = some (.completed ⟨.malformedFrame, []⟩) ∧
    response State.reset 0x2400010000000000000000000000007F =
      some (.completed ⟨.ok, [0x400010000000000000000000000007F]⟩) := by decide
/-- 95_test_vectors.md Q2; the slots still hold what they held (20_memory.md R45). -/
theorem test_create_empties :
    (answer (exec .create (filled 2 []))).map (fun t => (t.count, t.slots.length)) = some (0, 2) := by decide
/-- 95_test_vectors.md Q6: stored verbatim. -/
theorem test_enqueue_verbatim :
    (answer (exec (.enqueue frameX) (filled 1 []))).map (fun t => (t.count, t.slots)) =
      some (2, [(0, frameA), (1, frameX)]) := by decide
/-- 95_test_vectors.md Q8, Q9: the hundredth frame is stored, the next refused. -/
theorem test_enqueue_capacity :
    (answer (exec (.enqueue frameA) (filled 99 []))).map (fun t => (t.count, qFull t)) = some (100, 1) ∧
    response (filled 100 []) 0x4000002464DEADBEEF0000000000007F = some (.completed ⟨.busFull, []⟩) ∧
    response (filled 100 []) 0x4000002469000000000000000000007F = some (.completed ⟨.malformedFrame, []⟩) := by
  decide +kernel
/-- 00_scope.md R7: `CNT_W` = `ceil(log2(CAP+1))`, 7 for this hardware's 100; the widths on both sides of 127 and at the
least capacity. -/
theorem test_count_width :
    Config.hardware.cntW = 7 ∧ ([1, 2, 3, 4, 127, 128].map (fun n => (Config.mk n).cntW) = [1, 2, 2, 3, 7, 8]) := by
  decide
/-- 10_state.md R33: with `CAP` = 1 the queue goes from EMPTY to FULL at the first ENQUEUE, and the next is refused. -/
theorem test_enqueue_capacity_one :
    (answer (exec (.enqueue frameX) (filledIn 1 0 []))).map (fun t => (t.count, t.slots, qFull t)) =
      some (1, [(0, frameX)], 1) ∧
    response (filledIn 1 1 []) (encode (.enqueue frameX)) = some (.completed ⟨.busFull, []⟩) := by decide
/-- 95_test_vectors.md Q13: the beat is `rend(X)`, the slot still holds `X`. -/
theorem test_drain_renders :
    (answer (exec .drain (holding [frameA, frameX] []))).map (fun t => (t.delivered, t.slots)) =
      some ([.completed ⟨.ok, [frameA, 0xC3579BDE31122330000000000246955]⟩], [(0, frameA), (1, frameX)]) := by decide
/-- 95_test_vectors.md Q11. -/
theorem test_drain_empty : response State.reset 0x50000000000000000000000000000000 = some (.completed ⟨.ok, []⟩) := by
  decide
/-- 95_test_vectors.md Q16: opcode 0. -/
theorem test_illegal_word : response State.reset 0 = some (.completed ⟨.illegalCommand, []⟩) := by decide
/-- 70_reset_and_hazards.md R152: one of two beats has passed when the reset comes. -/
theorem test_reset_during_drain :
    (answer (step (holding [frameA, frameC] [.resetDuring (encode .drain) 1]))).map
      (fun t => (t.count, t.slots, t.delivered)) = some (0, [], [.abandoned [frameA]]) := by decide
/-- The very next step takes the word placed by `withFetchWord`. -/
theorem test_withFetchWord :
    (answer (step (State.reset.withFetchWord 128 0x4000002464DEADBEEF0000000000007F))).map
      (fun t => (t.count, t.slots, t.hostIn)) = some (1, [(0, frameA)], []) := by decide
/-- 92_eei_decisions.md D16: the reference text of `A`. -/
theorem test_reference_text :
    referenceText frameA =
      ("Start of Frame: 0\nIdentifier (Standard): 0x123\nData Length: 4\nData: DE AD BE EF\n" ++
        "CRC: 0x0\nACK: 0x0\nEnd of Frame: 0x7F\n").toList := by decide +kernel

/-! ## Witnesses: states and operands that meet the hypotheses of each statement -/

theorem witness_EncodeOfDecodeIsTheWord : ∃ c i, decode c = .ok i := ⟨encode .drain, .drain, by decide⟩
theorem witness_OperandsAreTheFieldsOfTheWord :
    (((0x1000000918226F56DF77800000000000 : CommandWord).extractLsb 127 124 = 1#4) ∧
      (0x1000000918226F56DF77800000000000 : CommandWord).extractLsb 14 0 = 0#15) ∧
    ((0x2000002464DEADBEEF0000000000007F : CommandWord).extractLsb 127 124 = 2#4) ∧
    ((0x4000002464DEADBEEF0000000000007F : CommandWord).extractLsb 127 124 = 4#4) := by decide
/-- One word for each clause: opcode 0, 6 and 15; BUILD with reserved bit 0 and 14; CREATE with bit 0, DRAIN with bit
123; and a legal word, which meets none. -/
theorem witness_IllegalWordsAnsweredIllegalCommand :
    (State.reset.withFetchWord 128 0).hostIn = .command 0 :: [] ∧
    ((0 : CommandWord).extractLsb 127 124).toNat = 0 ∧
    6 ≤ ((0x60000000000000000000000000000000 : CommandWord).extractLsb 127 124).toNat ∧
    6 ≤ ((0xF0000000000000000000000000000000 : CommandWord).extractLsb 127 124).toNat ∧
    ((0x10000000000000000000000000000001 : CommandWord).extractLsb 127 124 = 1#4 ∧
      (0x10000000000000000000000000000001 : CommandWord).extractLsb 14 0 ≠ 0#15) ∧
    ((0x10000000000000000000000000004000 : CommandWord).extractLsb 127 124 = 1#4 ∧
      (0x10000000000000000000000000004000 : CommandWord).extractLsb 14 0 ≠ 0#15) ∧
    ((0x30000000000000000000000000000001 : CommandWord).extractLsb 127 124 = 3#4 ∧
      (0x30000000000000000000000000000001 : CommandWord).extractLsb 123 0 ≠ 0#124) ∧
    ((0x58000000000000000000000000000000 : CommandWord).extractLsb 127 124 = 5#4 ∧
      (0x58000000000000000000000000000000 : CommandWord).extractLsb 123 0 ≠ 0#124) ∧
    decode 0x50000000000000000000000000000000 = .ok .drain := by decide
theorem witness_PackingIsABijectionOntoWellFormedWords : FrameWF frameA ∧ FrameWF frameB4 ∧ FrameWF frameX := by decide
/-- `dlc` 8 and Standard 0x7FF are well-formed; `dlc` 9 and a Standard identifier with bit 11 are not. -/
theorem witness_MalformedWordsSpellNoFrameAndAreRefused :
    ((frameB4.extractLsb 91 88).toNat = 8 ∧ FrameWF frameB4) ∧
    ((frameM1.extractLsb 91 88).toNat = 9 ∧ ¬ FrameWF frameM1) ∧ ¬ FrameWF frameM2 := by decide
theorem witness_IdentifierEncoding :
    (unpack frameB4).map Frame.identifier = some (.standard 0x7FF) ∧
    (unpack 0x7FFFFFFE8FFFFFFFFFFFFFFFF00007F).map Frame.identifier = some (.extended 0x1FFFFFFF) ∧
    frameM2.extractLsb 122 122 = 0#1 ∧ frameM2.extractLsb 121 104 ≠ 0#18 := by decide
theorem witness_ResetStateIsTheEmptyQueue : 1 ≤ Config.hardware.cap ∧ 1 ≤ (Config.mk 1).cap := by decide
theorem witness_StatusOutputsFollowCount :
    FrameWF frameA ∧ (filled 100 []).count ≤ (filled 100 []).config.cap ∧ qFull (filled 100 []) = 1#1 ∧
    (answer (step (filled 100 [.command (encode .create)]))).map qFull = some 0#1 ∧
    (answer (step (filled 100 [.reset]))).map qFull = some 0#1 ∧
    (answer (step (filled 100 [.resetDuring (encode .create) 0]))).map qFull = some 0#1 := by decide +kernel
theorem witness_StepRunsTheDecodedCommand :
    (filled 1 [.command (encode .drain)]).hostIn = .command (encode .drain) :: [] ∧
    decode (encode .drain) = .ok .drain := by decide
theorem witness_StepWithNothingPresentedWaits : State.reset.hostIn = [] := rfl
theorem witness_ResetInputGivesTheResetState : (filled 1 [.reset]).hostIn = .reset :: [] := rfl
theorem witness_ResetDuringACommandAbandonsIt :
    (filled 2 [.resetDuring (encode .drain) 1]).Inv ∧
    (filled 2 [.resetDuring (encode .drain) 1]).hostIn = .resetDuring (encode .drain) 1 :: [] := by decide
/-- The largest length and identifiers, with just enough payload (95_test_vectors.md B4, B5). -/
theorem witness_BuildReturnsTheRequestedFrame :
    ((8 : BitVec 8).toNat ≤ 8 ∧ (2047 : BitVec 32).toNat < 2 ^ (if IdKind.standard = .extended then 29 else 11) ∧
      (8 : BitVec 8).toNat ≤ (8 : BitVec 4).toNat) ∧
    ((0 : BitVec 8).toNat ≤ 8 ∧ (536870911 : BitVec 32).toNat < 2 ^ (if IdKind.extended = .extended then 29 else 11) ∧
      (0 : BitVec 8).toNat ≤ (0 : BitVec 4).toNat) := by decide
/-- Length 9; identifiers 2048 and 536870912; seven bytes for length 8 (95_test_vectors.md E1, E2, E3, E8, E9). -/
theorem witness_BuildReportsItsFirstError :
    8 < (9 : BitVec 8).toNat ∧
    ((8 : BitVec 8).toNat ≤ 8 ∧ 2 ^ (if IdKind.standard = .extended then 29 else 11) ≤ (2048 : BitVec 32).toNat) ∧
    ((8 : BitVec 8).toNat ≤ 8 ∧ 2 ^ (if IdKind.extended = .extended then 29 else 11) ≤ (536870912 : BitVec 32).toNat) ∧
    ((8 : BitVec 8).toNat ≤ 8 ∧ (2047 : BitVec 32).toNat < 2 ^ (if IdKind.standard = .extended then 29 else 11) ∧
      (7 : BitVec 4).toNat < (8 : BitVec 8).toNat) := by decide
/-- A BUILD that succeeds, and a built word. -/
theorem witness_BuiltWordsAreExactlyWhatBuildReturns :
    exec (.build .standard 0x123 4 4 0xDEADBEEF00000000) State.reset =
      .next { State.reset with delivered := State.reset.delivered ++ [.completed ⟨.ok, [frameA]⟩] } ∧
    FrameBuilt frameA := ⟨by rfl, by decide⟩
/-- Length 4, payloads that differ from byte 4 on, `pay_count` 4 and 15 (95_test_vectors.md B1, B9). -/
theorem witness_BuildIgnoresUnusedOperandBits :
    (∀ k : Fin 8, k.val < (4 : BitVec 8).toNat → byteAt 0xDEADBEEF00000000 k = byteAt 0xDEADBEEF11223344 k) ∧
    ((4 : BitVec 4).toNat < (4 : BitVec 8).toNat ↔ (15 : BitVec 4).toNat < (4 : BitVec 8).toNat) := by decide
theorem witness_HostPayloadEncodingLosesNothing : 2 ^ 32 - 1 < 2 ^ 32 ∧ 2 ^ 8 - 1 < 2 ^ 8 := by decide
theorem witness_RenderReturnsTheRenderingWord : FrameWF frameX ∧ FrameWF frameB4 ∧ FrameWF frameC := by decide
theorem witness_RenderingForgetsExactlyTheHiddenBits :
    FrameWF frameX ∧ FrameWF frameX' ∧ SameShown frameX frameX' ∧ frameX ≠ frameX' ∧ FrameBuilt frameA := by decide
theorem witness_BuildThenRenderRoundTrip :
    exec (.build .extended 0x1ABCDEF 0 0 0) State.reset =
      .next { State.reset with delivered := State.reset.delivered ++ [.completed ⟨.ok, [frameC]⟩] } := by rfl
theorem witness_RenderedByteCountIsDataLength : FrameWF frameB4 ∧ (7 : Fin 8).val < (dlcField frameB4).toNat := by decide
theorem witness_CreateEmptiesTheQueue : 1 ≤ (filled 2 []).config.cap ∧ 1 ≤ (filledIn 1 1 []).config.cap := by decide
/-- Slot 99 is the last inside the address space, slot 100 the first outside; slots 0 and 1 where `CAP` is 1. -/
theorem witness_SlotReadsWhatWasLastWritten :
    99 < Config.hardware.cap ∧ ¬ 100 < Config.hardware.cap ∧ 0 < (Config.mk 1).cap ∧ ¬ 1 < (Config.mk 1).cap ∧
    Memory.wf Config.hardware (filled 2 []).slots := by decide
theorem witness_EnqueueStoresTheFrame :
    FrameWF frameX ∧ (filled 0 []).count < (filled 0 []).config.cap ∧
    (filled 99 []).count < (filled 99 []).config.cap ∧ (filledIn 1 0 []).count < (filledIn 1 0 []).config.cap := by decide
theorem witness_EnqueueOnAFullQueueIsBusFull :
    FrameWF frameA ∧ FrameWF frameX ∧ (filled 100 []).count = (filled 100 []).config.cap ∧
    (filledIn 1 1 []).count = (filledIn 1 1 []).config.cap := by decide
theorem witness_DrainReturnsTheRenderings : State.reset.Inv ∧ (filled 100 []).Inv ∧ (filledIn 1 1 []).Inv := by
  decide +kernel
/-- A BUILD, a RENDER that fails, a DRAIN and a word that is no command: what may stand between two DRAINs. -/
def betweenDrains : List CommandWord :=
  [encode (.build .standard 0x123 0 0 0), encode (.render frameM1), encode .drain, 0]
theorem test_betweenDrains_decode : betweenDrains.map decode =
    [.ok (.build .standard 0x123 0 0 0), .ok (.render frameM1), .ok .drain, .error (.opcode 0)] := by decide
theorem witness_DrainRepeatsAndEnqueueDoesNot :
    let s := filled 2
      ([.command (encode .drain)] ++ betweenDrains.map HostInput.command ++ [.command (encode .drain)])
    (∃ u, exec .drain s = .next u) ∧
      (∀ c ∈ betweenDrains, decode c ≠ .ok .create ∧ ∀ w : FrameWord, decode c ≠ .ok (.enqueue w)) ∧
      s.hostIn = [.command (encode .drain)] ++ betweenDrains.map HostInput.command ++ [.command (encode .drain)] ∧
      FrameWF frameA ∧ (filled 98 []).count + 2 ≤ (filled 98 []).config.cap :=
  ⟨⟨_, rfl⟩, fun c hc => by
    have hd := List.mem_map_of_mem (f := decode) hc
    rw [test_betweenDrains_decode] at hd
    simp only [List.mem_cons, List.not_mem_nil, or_false] at hd
    rcases hd with h | h | h | h <;> rw [h] <;> exact ⟨nofun, nofun⟩, rfl, by decide, by decide⟩
theorem witness_DrainAfterEnqueuesShowsThemLast :
    let s := filled 99 [.command (encode (.enqueue frameX)), .command (encode .drain)]
    s.Inv ∧ (∀ w ∈ [frameX], FrameWF w) ∧ s.count + [frameX].length ≤ s.config.cap ∧
      s.hostIn = [frameX].map (fun w => .command (encode (.enqueue w))) ++ [.command (encode .drain)] :=
  ⟨by decide +kernel, fun w hw => by rw [List.mem_singleton.1 hw]; decide, by decide +kernel, rfl⟩
theorem witness_StepRefinesTheListView :
    (filled 100 [.command (encode (.enqueue frameX))]).Inv ∧
    (filled 100 [.command (encode (.enqueue frameX))]).hostIn = .command (encode (.enqueue frameX)) :: [] := by
  decide +kernel
theorem witness_RunIsTheFoldOfTheCommands :
    (filled 1 [.command (encode .drain), .command 0]).Inv ∧
    (filled 1 [.command (encode .drain), .command 0]).hostIn = [encode .drain, 0].map HostInput.command := by decide
/-- This hardware's capacity, and capacity 1. -/
theorem witness_CapacityProperty :
    ∀ cap ∈ [100, 1],
      let ws := List.replicate cap frameX
      let cs := [encode (.enqueue frameA), encode .drain]
      let s := filledIn cap 0 (ws.map (fun w => HostInput.command (encode (.enqueue w))) ++ cs.map HostInput.command)
      s.Inv ∧ s.count = 0 ∧ ws.length = s.config.cap ∧ (∀ w ∈ ws, FrameWF w) ∧
        (cs.map decode = [.ok (.enqueue frameA), .ok .drain]) ∧
        s.hostIn = ws.map (fun w => HostInput.command (encode (.enqueue w))) ++ cs.map HostInput.command :=
  fun cap hc => ⟨⟨by revert cap; decide, ⟨.nil, nofun⟩, Nat.zero_le _, fun i hi => absurd hi (Nat.not_lt_zero i)⟩, rfl,
    List.length_replicate, fun w hw => by rw [List.eq_of_mem_replicate hw]; decide, by decide, rfl⟩
theorem witness_EveryStepKeepsTheInvariant :
    (filled 99 [.command (encode (.enqueue frameX))]).Inv ∧
    (answer (step (filled 99 [.command (encode (.enqueue frameX))]))).isSome = true := by decide +kernel
theorem witness_ResetStateMeetsTheInvariant : 1 ≤ Config.hardware.cap ∧ 1 ≤ (Config.mk 1).cap := by decide
/-- A step that gives a next state in a block of capacity 1. -/
theorem witness_NoStepChangesTheConfiguration :
    (answer (step (filledIn 1 0 [.reset]))).map (fun t => t.config) = some ⟨1⟩ := by decide
/-- Capacities on both sides of a power of two, the queue full; the least capacity. -/
theorem witness_CountFitsItsRegister :
    (filled 100 []).Inv ∧ (filledIn 127 127 []).Inv ∧ (filledIn 128 128 []).Inv ∧ (filledIn 1 1 []).Inv := by
  decide +kernel
theorem witness_NoRunEverStops : (filled 2 [.command 0, .reset]).Inv := by decide
/-- `count` falls by CREATE, by reset, and by reset during a command. -/
theorem witness_OnlyCreateAndResetLowerCount :
    (answer (step (filled 2 [.command (encode .create)]))).map (fun t => t.count) = some 0 ∧
    (answer (step (filled 2 [.reset]))).map (fun t => t.count) = some 0 ∧
    (answer (step (filled 2 [.resetDuring (encode .drain) 0]))).map (fun t => t.count) = some 0 := by decide
theorem witness_OnlyEnqueueWritesASlot :
    let s := filled 1 [.command (encode (.enqueue frameX))]
    s.hostIn = .command (encode (.enqueue frameX)) :: [] ∧
    (answer (step s)).map (fun t => decide (t.readSlot 1 ≠ s.readSlot 1)) = some true := by decide
theorem witness_CommandsLeaveTheRestUnchanged :
    (∃ t, exec (.build .standard 0x123 4 4 0) (filled 2 []) = .next t) ∧
    (∃ t, exec (.render frameX) (filled 2 []) = .next t) ∧ (∃ t, exec .create (filled 2 []) = .next t) ∧
    (∃ t, exec (.enqueue frameX) (filled 2 []) = .next t) ∧ ∃ t, exec .drain (filled 2 []) = .next t :=
  ⟨⟨_, rfl⟩, ⟨_, rfl⟩, ⟨_, rfl⟩, ⟨_, rfl⟩, ⟨_, rfl⟩⟩
/-- A status of the table and one outside it: a full queue answers `BusFull`, and CREATE has no such entry. -/
theorem witness_StatusesByOpcode :
    (filled 100 [.command (encode (.enqueue frameX))]).Inv ∧
    (answer (step (filled 100 [.command (encode (.enqueue frameX))]))).map (fun t => t.delivered) =
      some [.completed ⟨.busFull, []⟩] ∧
    Status.busFull ∈ statusesOf 4#4 ∧ Status.busFull ∉ statusesOf 3#4 := by decide +kernel
theorem witness_ErrorsChangeNothing :
    let s := filled 1 [.command (encode (.enqueue frameM1))]
    s.hostIn = .command (encode (.enqueue frameM1)) :: [] ∧
    (answer (step s)).map (fun t => t.delivered) = some (s.delivered ++ [.completed ⟨.malformedFrame, []⟩]) ∧
    Status.malformedFrame ≠ .ok := by decide
theorem witness_BeatsPerCommand :
    (filled 2 [.command (encode .drain)]).Inv ∧
    (filled 2 [.command (encode .drain)]).hostIn = .command (encode .drain) :: [] := by decide
/-- Two queues, and two inputs, that differ in hidden bits. -/
theorem witness_HiddenBitsNeverReachTheHost :
    let s := holding [frameX] [.command (encode (.enqueue frameX)), .command (encode .drain)]
    let u := holding [frameX'] [.command (encode (.enqueue frameX')), .command (encode .drain)]
    s.Inv ∧ u.Inv ∧ s.config = u.config ∧ s.count = u.count ∧ s.delivered = u.delivered ∧
      List.Forall₂ SameShown s.queue u.queue ∧ List.Forall₂ SameShownInput s.hostIn u.hostIn :=
  ⟨by decide, by decide, rfl, rfl, rfl, .cons (by decide) .nil,
    .cons (.inr ⟨frameX, frameX', by decide, .inr ⟨rfl, rfl⟩⟩) (.cons (.inl rfl) .nil)⟩

end Sys2Proof.Tests
end

namespace Sys2Proof.Machine

/-! SUPPORT. The equations of a step, of a command word and of the list view, one per input of the host and per outcome
of the decoder. -/

theorem runCommand_of_decode_ok {c : CommandWord} {i : Instr} (h : decode c = .ok i) (s : State) :
    runCommand c s = exec i s := by
  simp only [runCommand, h]

theorem runCommand_of_decode_error {c : CommandWord} {e : Illegal} (h : decode c = .error e) (s : State) :
    runCommand c s = .next (s.raise .illegalCommand) := by
  simp only [runCommand, h]

theorem listStep_of_decode_ok {c : CommandWord} {i : Instr} (h : decode c = .ok i) (cfg : Config)
    (q : List FrameWord) : listStep cfg q c = listExec cfg i q := by
  simp only [listStep, h]

theorem listStep_of_decode_error {c : CommandWord} {e : Illegal} (h : decode c = .error e) (cfg : Config)
    (q : List FrameWord) : listStep cfg q c = (q, .raised .illegalCommand) := by
  simp only [listStep, h]

theorem step_of_nil {s : State} (h : s.hostIn = []) : step s = .next s := by
  simp only [step, h]

theorem step_of_command {s : State} {c : CommandWord} {rest : List HostInput} (h : s.hostIn = .command c :: rest) :
    step s = runCommand c (s.withHostIn rest) := by
  simp only [step, h]

theorem step_of_reset {s : State} {rest : List HostInput} (h : s.hostIn = .reset :: rest) :
    step s = .next (s.withHostIn rest).takeReset := by
  simp only [step, h]

theorem step_of_resetDuring {s t : State} {c : CommandWord} {n : Nat} {rest : List HostInput}
    (h : s.hostIn = .resetDuring c n :: rest) (ht : runCommand c (s.withHostIn rest) = .next t) :
    step s = .next ((s.withHostIn rest).abandon t n) := by
  simp only [step, h, ht]

/-! SUPPORT. The invariant of 10_state.md R26 under every update of the state, and so under every command and step. -/

theorem State.Inv.respond {s : State} (h : s.Inv) (r : Response) : (s.respond r).Inv := h.congr rfl rfl rfl

theorem State.Inv.withHostIn {s : State} (h : s.Inv) (rest : List HostInput) : (s.withHostIn rest).Inv :=
  h.congr rfl rfl rfl

theorem State.Inv.takeReset {s : State} (h : s.Inv) : s.takeReset.Inv :=
  (State.resetOf_inv h.1).congr rfl rfl rfl

theorem State.Inv.abandon {s : State} (h : s.Inv) (t : State) (n : Nat) : (s.abandon t n).Inv :=
  (State.resetOf_inv h.1).congr rfl rfl rfl

theorem State.Inv.clearCount {s : State} (h : s.Inv) : s.clearCount.Inv := by
  obtain ⟨hcap, hwf, -, -⟩ := h
  exact ⟨hcap, hwf, Nat.zero_le _, fun i hi => absurd hi (Nat.not_lt_zero i)⟩

/-- A slot that holds a well-formed word still does after a well-formed word is written to any slot. -/
theorem StoredFrame.insert {m : Memory} {w : FrameWord} {i j : Nat} (hw : FrameWF w) (h : j ≠ i → StoredFrame m j) :
    StoredFrame (Memory.insert i w m) j := by
  by_cases hji : j = i
  · subst hji
    exact storedFrame_iff.2 ⟨w, Memory.lookup_insert_self j w m, hw⟩
  · rw [StoredFrame, Memory.lookup_insert_ne hji]
    exact h hji

/-- ENQUEUE's append of a well-formed word, with room for it, keeps the invariant. -/
theorem State.Inv.appended {s : State} {w : FrameWord} (h : s.Inv) (hw : FrameWF w) (hroom : s.count < s.config.cap) :
    (s.appended (Memory.insert s.count w s.slots)).Inv := by
  obtain ⟨hcap, hwf, -, hstored⟩ := h
  refine ⟨hcap, Memory.wf_insert w hroom hwf, hroom, fun i hi => StoredFrame.insert hw fun hne => hstored i ?_⟩
  rw [State.appended_count] at hi
  omega

/-- A command that gives a next state keeps the invariant. -/
theorem exec_inv {i : Instr} {s t : State} (h : s.Inv) (ht : exec i s = .next t) : t.Inv := by
  obtain ⟨r, rfl⟩ | ⟨-, rfl⟩ | ⟨w, -, hw, hroom, rfl⟩ := exec_next ht
  · exact h.respond r
  · exact h.clearCount.respond _
  · exact (h.appended hw hroom).respond _

/-- A command word that gives a next state keeps the invariant. -/
theorem runCommand_inv {c : CommandWord} {s t : State} (h : s.Inv) (ht : runCommand c s = .next t) : t.Inv := by
  obtain ⟨i, -, hi⟩ | ⟨e, -, rfl⟩ := runCommand_next ht
  · exact exec_inv h hi
  · exact h.respond _

/-- A step that gives a next state keeps the invariant. -/
theorem step_inv {s t : State} (h : s.Inv) (ht : step s = .next t) : t.Inv := by
  obtain ⟨-, rfl⟩ | ⟨c, rest, -, hc⟩ | ⟨rest, -, rfl⟩ | ⟨c, n, rest, u, -, -, rfl⟩ := step_next ht
  · exact h
  · exact runCommand_inv (h.withHostIn rest) hc
  · exact (h.withHostIn rest).takeReset
  · exact (h.withHostIn rest).abandon u n

/-! SUPPORT. The configuration under every command and step. -/

theorem exec_config {i : Instr} {s t : State} (h : exec i s = .next t) : t.config = s.config := by
  obtain ⟨r, rfl⟩ | ⟨-, rfl⟩ | ⟨w, -, -, -, rfl⟩ := exec_next h <;> rfl

theorem runCommand_config {c : CommandWord} {s t : State} (h : runCommand c s = .next t) : t.config = s.config := by
  obtain ⟨i, -, hi⟩ | ⟨e, -, rfl⟩ := runCommand_next h
  · exact exec_config hi
  · rfl

theorem step_config {s t : State} (h : step s = .next t) : t.config = s.config := by
  obtain ⟨-, rfl⟩ | ⟨c, rest, -, hc⟩ | ⟨rest, -, rfl⟩ | ⟨c, n, rest, u, -, -, rfl⟩ := step_next h
  · rfl
  · exact (runCommand_config hc).trans (State.withHostIn_config s rest)
  · rfl
  · rfl

/-! SUPPORT. In a state that meets the invariant the block refines its list view (41_busqueue.md R110): every command
and every command word gives a next state, whose list view and response are those of `listExec` and `listStep`. -/

/-- `t` is `s` after one response: what the list view's function gives, with no input of the host taken. -/
structure Answers (s t : State) (a : List FrameWord × Response) : Prop where
  queue : t.queue = a.1
  delivered : t.delivered = s.delivered ++ [.completed a.2]
  hostIn : t.hostIn = s.hostIn

/-- A response alone leaves the list view as it is. -/
theorem answers_respond (s : State) (r : Response) : Answers s (s.respond r) (s.queue, r) := ⟨rfl, rfl, rfl⟩

theorem execEnqueue_refines {s : State} (h : s.Inv) (w : FrameWord) :
    ∃ t, execEnqueue w s = .next t ∧ Answers s t (listExec s.config (.enqueue w) s.queue) := by
  have hlen : s.queue.length = s.count := (drainFrom_queue h).2
  obtain ⟨-, -, hle, -⟩ := h
  by_cases hw : FrameWF w
  · rcases Nat.eq_or_lt_of_le hle with hfull | hroom
    · refine ⟨s.raise .busFull, by rw [execEnqueue, if_pos hw, if_pos hfull], ?_⟩
      rw [listExec, if_pos hw, if_neg (by omega)]
      exact answers_respond s _
    · refine ⟨_, execEnqueue_room hw hroom, ?_⟩
      rw [listExec, if_pos hw, if_pos (by omega)]
      exact ⟨State.queue_appended s w, rfl, rfl⟩
  · refine ⟨s.raise .malformedFrame, by rw [execEnqueue, if_neg hw], ?_⟩
    rw [listExec, if_neg hw]
    exact answers_respond s _

theorem execDrain_of_inv {s : State} (h : s.Inv) : execDrain s = .next (s.returnOk (s.queue.map rend)) := by
  simp only [execDrain, (drainFrom_queue h).1]

theorem exec_refines {s : State} (h : s.Inv) (i : Instr) :
    ∃ t, exec i s = .next t ∧ Answers s t (listExec s.config i s.queue) := by
  cases i with
  | build ext idIn lenIn payCount payIn => exact ⟨_, rfl, answers_respond s _⟩
  | render w => exact ⟨_, rfl, answers_respond s _⟩
  | create => exact ⟨_, rfl, ⟨State.queue_of_count_zero rfl, rfl, rfl⟩⟩
  | enqueue w => exact execEnqueue_refines h w
  | drain => exact ⟨_, execDrain_of_inv h, answers_respond s _⟩

theorem runCommand_refines {s : State} (h : s.Inv) (c : CommandWord) :
    ∃ t, runCommand c s = .next t ∧ Answers s t (listStep s.config s.queue c) := by
  cases hc : decode c with
  | ok i =>
    rw [runCommand_of_decode_ok hc, listStep_of_decode_ok hc]
    exact exec_refines h i
  | error e =>
    rw [runCommand_of_decode_error hc, listStep_of_decode_error hc]
    exact ⟨_, rfl, answers_respond s _⟩

/-- The step that takes a command word refines the list view's step (41_busqueue.md R110). -/
theorem step_command_refines {s : State} {c : CommandWord} {rest : List HostInput} (h : s.Inv)
    (hc : s.hostIn = .command c :: rest) :
    ∃ t, step s = .next t ∧ Answers (s.withHostIn rest) t (listStep s.config s.queue c) := by
  rw [step_of_command hc]
  exact runCommand_refines (h.withHostIn rest) c

/-- In a state that meets the invariant no step stops, whatever the host presents. -/
theorem step_total {s : State} (h : s.Inv) : ∃ t, step s = .next t := by
  match hin : s.hostIn with
  | [] => exact ⟨_, step_of_nil hin⟩
  | .command c :: rest =>
    obtain ⟨t, ht, -⟩ := step_command_refines h hin
    exact ⟨t, ht⟩
  | .reset :: rest => exact ⟨_, step_of_reset hin⟩
  | .resetDuring c n :: rest =>
    obtain ⟨t, ht, -⟩ := runCommand_refines (h.withHostIn rest) c
    exact ⟨_, step_of_resetDuring hin ht⟩

/-- A run from a state that meets the invariant ends in a state that meets it. -/
theorem run_total {s : State} (h : s.Inv) (n : Nat) : ∃ t, Sys2Proof.core.run n s = .next t ∧ t.Inv := by
  induction n generalizing s with
  | zero => exact ⟨s, run_zero s, h⟩
  | succ n ih =>
    obtain ⟨u, hu⟩ := step_total h
    rw [run_succ n hu]
    exact ih (step_inv h hu)

/-! SUPPORT. The width of the count register (00_scope.md R7, 10_state.md R24). -/

theorem two_pow_cntW_pred_le_cap {cfg : Config} (h : 1 ≤ cfg.cap) : 2 ^ (cfg.cntW - 1) ≤ cfg.cap :=
  Nat.log2_self_le (Nat.ne_of_gt h)

theorem cap_lt_two_pow_cntW (cfg : Config) : cfg.cap < 2 ^ cfg.cntW := Nat.lt_log2_self

/-- A count that fits its register is what `q_count` shows. -/
theorem toNat_qCount {s : State} (h : s.count < 2 ^ s.config.cntW) : (qCount s).toNat = s.count :=
  (BitVec.toNat_ofNat ..).trans (Nat.mod_eq_of_lt h)

/-! The statements of the family 00_scope.md, settled. -/

/-- Settles O35, by induction on the commands: each step refines `listStep` and keeps the invariant and the
configuration. -/
theorem runIsTheFoldOfTheCommands : Obligations.RunIsTheFoldOfTheCommands := by
  intro s cs h hin
  induction cs generalizing s with
  | nil => exact ⟨s, run_zero s, hin, rfl, (List.append_nil _).symm⟩
  | cons c cs ih =>
    obtain ⟨u, hu, hqueue, hdelivered, hhost⟩ := step_command_refines h hin
    obtain ⟨t, ht, hlast, htqueue, htdelivered⟩ := ih u (step_inv h hu) hhost
    rw [step_config hu, hqueue] at htqueue htdelivered
    refine ⟨t, (run_succ cs.length hu).trans ht, hlast, htqueue, ?_⟩
    rw [htdelivered, hdelivered, List.append_assoc]
    rfl

/-- Settles O39: a run from a state that meets the invariant goes on, and its states meet it. -/
theorem noRunEverStops : Obligations.NoRunEverStops := by
  intro s h n
  obtain ⟨t, ht, -⟩ := run_total h n
  exact ⟨t, ht⟩

/-- Settles O48. -/
theorem noStepChangesTheConfiguration : Obligations.NoStepChangesTheConfiguration :=
  fun _ _ h => step_config h

/-- Settles O12. -/
theorem stepRunsTheDecodedCommand : Obligations.StepRunsTheDecodedCommand :=
  fun _ _ _ _ hin hc => (step_of_command hin).trans (runCommand_of_decode_ok hc _)

/-- Settles O49: `CAP` has `CNT_W` binary digits, and `count` is at most `CAP`. -/
theorem countFitsItsRegister : Obligations.CountFitsItsRegister := by
  intro s h
  obtain ⟨hcap, -, hle, -⟩ := h
  have hfits : s.config.cap < 2 ^ s.config.cntW := cap_lt_two_pow_cntW s.config
  have hcount : s.count < 2 ^ s.config.cntW := Nat.lt_of_le_of_lt hle hfits
  exact ⟨Nat.lt_succ_of_le (two_pow_cntW_pred_le_cap hcap), hfits, hcount, toNat_qCount hcount⟩

end Sys2Proof.Machine

namespace Sys2Proof.Machine

/-! SUPPORT. Words that differ only where nothing is shown (10_state.md R29, 40_framecodec.md R99): the same
well-formedness, the same rendering, and the same responses. -/

theorem SameShown.refl (w : FrameWord) : SameShown w w := ⟨rfl, rfl, rfl, rfl, fun _ _ => rfl, rfl, rfl, rfl⟩

/-- The bytes kept speak of the first `n` bytes alone. -/
theorem keepBytes_congr {n : Nat} {p q : BitVec 64} (h : ∀ k : Fin 8, k.val < n → byteAt p k = byteAt q k) :
    keepBytes n p = keepBytes n q := by
  refine byteAt_ext fun k => ?_
  rw [byteAt_keepBytes, byteAt_keepBytes]
  split
  · next hk => exact h k hk
  · rfl

theorem SameShown.rend {w v : FrameWord} (h : SameShown w v) : rend w = rend v := by
  obtain ⟨hsof, hide, hid, hdlc, hbytes, hcrc, hack, heof⟩ := h
  rw [Machine.rend, Machine.rend, keepBytes_congr hbytes, hsof, hide, hid, hdlc, hcrc, hack, heof]

theorem SameShown.frameWF_iff {w v : FrameWord} (h : SameShown w v) : FrameWF w ↔ FrameWF v := by
  obtain ⟨-, hide, hid, hdlc, -⟩ := h
  rw [FrameWF, FrameWF, upperId_eq, upperId_eq, hide, hid, hdlc]

theorem SameShown.renderResponse {w v : FrameWord} (h : SameShown w v) : renderResponse w = renderResponse v := by
  simp only [Machine.renderResponse, h.frameWF_iff, h.rend]

/-- Queues whose words differ only where nothing is shown have the same renderings. -/
theorem map_rend_of_sameShown {q p : List FrameWord} (h : List.Forall₂ SameShown q p) : q.map rend = p.map rend := by
  induction h with
  | nil => rfl
  | cons hw _ ih => rw [List.map_cons, List.map_cons, hw.rend, ih]

/-! SUPPORT. The list view's function (41_busqueue.md R110) on queues and command words that differ only where nothing
is shown. -/

/-- The same response, and queues whose words differ only where nothing is shown. -/
structure SameShownAnswer (a b : List FrameWord × Response) : Prop where
  queue : List.Forall₂ SameShown a.1 b.1
  response : a.2 = b.2

section Answers
variable {cfg : Config} {q p : List FrameWord} (hq : List.Forall₂ SameShown q p)
include hq

theorem listExec_render_sameShown {w v : FrameWord} (h : SameShown w v) :
    SameShownAnswer (listExec cfg (.render w) q) (listExec cfg (.render v) p) :=
  ⟨hq, h.renderResponse⟩

theorem listExec_enqueue_sameShown {w v : FrameWord} (h : SameShown w v) :
    SameShownAnswer (listExec cfg (.enqueue w) q) (listExec cfg (.enqueue v) p) := by
  simp only [listExec, h.frameWF_iff, hq.length_eq]
  split
  · split
    · exact ⟨List.rel_append hq (.cons h .nil), rfl⟩
    · exact ⟨hq, rfl⟩
  · exact ⟨hq, rfl⟩

/-- One command on two queues alike but for hidden bits. -/
theorem listExec_sameShown (i : Instr) : SameShownAnswer (listExec cfg i q) (listExec cfg i p) := by
  cases i with
  | build ext idIn lenIn payCount payIn => exact ⟨hq, rfl⟩
  | render w => exact listExec_render_sameShown hq (.refl w)
  | create => exact ⟨.nil, rfl⟩
  | enqueue w => exact listExec_enqueue_sameShown hq (.refl w)
  | drain => exact ⟨hq, congrArg Response.okBeats (map_rend_of_sameShown hq)⟩

end Answers

theorem decode_encode_render (w : FrameWord) : decode (encode (.render w)) = .ok (.render w) := by
  rw [encode, decode, opcodeOf_append, if_neg (by decide), if_pos rfl, operand_append]

theorem decode_encode_enqueue (w : FrameWord) : decode (encode (.enqueue w)) = .ok (.enqueue w) := by
  rw [encode, decode, opcodeOf_append, if_neg (by decide), if_neg (by decide), if_neg (by decide), if_pos rfl,
    operand_append]

theorem listStep_sameShown {cfg : Config} {q p : List FrameWord} {c d : CommandWord} (hq : List.Forall₂ SameShown q p)
    (h : SameShownCommand c d) : SameShownAnswer (listStep cfg q c) (listStep cfg p d) := by
  obtain rfl | ⟨w, v, hwv, ⟨rfl, rfl⟩ | ⟨rfl, rfl⟩⟩ := h
  · cases hc : decode c with
    | ok i =>
      rw [listStep_of_decode_ok hc, listStep_of_decode_ok hc]
      exact listExec_sameShown hq i
    | error e =>
      rw [listStep_of_decode_error hc, listStep_of_decode_error hc]
      exact ⟨hq, rfl⟩
  · rw [listStep_of_decode_ok (decode_encode_render w), listStep_of_decode_ok (decode_encode_render v)]
    exact listExec_render_sameShown hq hwv
  · rw [listStep_of_decode_ok (decode_encode_enqueue w), listStep_of_decode_ok (decode_encode_enqueue v)]
    exact listExec_enqueue_sameShown hq hwv

/-! SUPPORT. Two blocks that the host cannot tell apart, and that no step lets it tell apart. -/

/-- The beats delivered last are those of the answer a command has just given. -/
theorem Answers.lastBeats {s t : State} {a : List FrameWord × Response} (h : Answers s t a) :
    t.lastBeats = a.2.beats := by
  simp [State.lastBeats, h.delivered]

/-- Two states that meet the invariant and are alike but for hidden bits, of the frames they store and of the inputs
still to come (10_state.md R29, clause 2). -/
structure SameShownState (s u : State) : Prop where
  invLeft : s.Inv
  invRight : u.Inv
  config : s.config = u.config
  delivered : s.delivered = u.delivered
  queue : List.Forall₂ SameShown s.queue u.queue
  hostIn : List.Forall₂ SameShownInput s.hostIn u.hostIn

section Pair
variable {s u : State} (h : SameShownState s u)
include h

theorem SameShownState.withHostIn {l m : List HostInput} (hlm : List.Forall₂ SameShownInput l m) :
    SameShownState (s.withHostIn l) (u.withHostIn m) :=
  ⟨h.invLeft.withHostIn l, h.invRight.withHostIn m, h.config, h.delivered, h.queue, hlm⟩

theorem SameShownState.takeReset : SameShownState s.takeReset u.takeReset := by
  refine ⟨h.invLeft.takeReset, h.invRight.takeReset, h.config, h.delivered, ?_, h.hostIn⟩
  rw [State.queue_of_count_zero s.takeReset_count, State.queue_of_count_zero u.takeReset_count]
  exact .nil

theorem SameShownState.abandon {t v : State} (hb : t.lastBeats = v.lastBeats) (n : Nat) :
    SameShownState (s.abandon t n) (u.abandon v n) := by
  refine ⟨h.invLeft.abandon t n, h.invRight.abandon v n, h.config, ?_, ?_, h.hostIn⟩
  · rw [State.abandon_delivered, State.abandon_delivered, h.delivered, hb]
  · rw [State.queue_of_count_zero (s.abandon_count t n), State.queue_of_count_zero (u.abandon_count v n)]
    exact .nil

/-- Command words alike but for hidden bits get the same response and leave the states so. -/
theorem SameShownState.runCommand {c d : CommandWord} (hcd : SameShownCommand c d) :
    ∃ t v, runCommand c s = .next t ∧ runCommand d u = .next v ∧ t.lastBeats = v.lastBeats ∧
      SameShownState t v := by
  obtain ⟨t, ht, hat⟩ := runCommand_refines h.invLeft c
  obtain ⟨v, hv, hav⟩ := runCommand_refines h.invRight d
  have hans : SameShownAnswer (listStep s.config s.queue c) (listStep u.config u.queue d) := by
    rw [h.config]
    exact listStep_sameShown h.queue hcd
  refine ⟨t, v, ht, hv, by rw [hat.lastBeats, hav.lastBeats, hans.response],
    runCommand_inv h.invLeft ht, runCommand_inv h.invRight hv, ?_, ?_, ?_, ?_⟩
  · rw [runCommand_config ht, runCommand_config hv, h.config]
  · rw [hat.delivered, hav.delivered, h.delivered, hans.response]
  · rw [hat.queue, hav.queue]
    exact hans.queue
  · rw [hat.hostIn, hav.hostIn]
    exact h.hostIn

/-- A step leaves the two states alike: their next inputs are of one kind, inputs of two kinds never being alike. -/
theorem SameShownState.step : ∃ t v, step s = .next t ∧ step u = .next v ∧ SameShownState t v := by
  rcases hs : s.hostIn with _ | ⟨a, l⟩
  · have hu : u.hostIn = [] := List.forall₂_nil_left_iff.1 (hs ▸ h.hostIn)
    exact ⟨s, u, step_of_nil hs, step_of_nil hu, h⟩
  · obtain ⟨b, m, hab, hlm, hu⟩ := List.forall₂_cons_left_iff.1 (hs ▸ h.hostIn)
    have hrest := h.withHostIn hlm
    match a, b, hab, hs, hu with
    | .command c, .command d, hcd, hs, hu =>
      obtain ⟨t, v, ht, hv, -, htv⟩ := hrest.runCommand hcd
      exact ⟨t, v, (step_of_command hs).trans ht, (step_of_command hu).trans hv, htv⟩
    | .reset, .reset, _, hs, hu => exact ⟨_, _, step_of_reset hs, step_of_reset hu, hrest.takeReset⟩
    | .resetDuring c n, .resetDuring d m, hcd, hs, hu =>
      obtain ⟨hcd, rfl⟩ := (hcd : SameShownCommand c d ∧ n = m)
      obtain ⟨t, v, ht, hv, hbeats, -⟩ := hrest.runCommand hcd
      exact ⟨_, _, step_of_resetDuring hs ht, step_of_resetDuring hu hv, hrest.abandon hbeats n⟩

end Pair

/-- No number of steps tells the two states apart. -/
theorem SameShownState.run {s u : State} (h : SameShownState s u) (n : Nat) :
    ∃ t v, Sys2Proof.core.run n s = .next t ∧ Sys2Proof.core.run n u = .next v ∧ SameShownState t v := by
  induction n generalizing s u with
  | zero => exact ⟨s, u, run_zero s, run_zero u, h⟩
  | succ n ih =>
    obtain ⟨t, v, ht, hv, htv⟩ := h.step
    rw [run_succ n ht, run_succ n hv]
    exact ih htv

/-! SUPPORT. What a command word can do to the state, and what the status outputs say of it (10_state.md R25, R30). -/

/-- Everything a command word can answer with a next state, by what it changes beside the response: nothing, `count`
for CREATE, or `slot[count]` and `count` for ENQUEUE. -/
theorem runCommand_changes {c : CommandWord} {s t : State} (h : runCommand c s = .next t) :
    (∃ r, t = s.respond r) ∨ (decode c = .ok .create ∧ t = s.clearCount.returnOk []) ∨
      ∃ w, decode c = .ok (.enqueue w) ∧ FrameWF w ∧ s.count < s.config.cap ∧
        t = (s.appended (Memory.insert s.count w s.slots)).returnOk [] := by
  obtain ⟨i, hi, ht⟩ | ⟨e, -, rfl⟩ := runCommand_next h
  · obtain ⟨r, rfl⟩ | ⟨rfl, rfl⟩ | ⟨w, rfl, hw, hroom, rfl⟩ := exec_next ht
    · exact .inl ⟨r, rfl⟩
    · exact .inr (.inl ⟨hi, rfl⟩)
    · exact .inr (.inr ⟨w, hi, hw, hroom, rfl⟩)
  · exact .inl ⟨_, rfl⟩

/-- A condition as the bit of an output. -/
theorem ofBool_decide (p : Prop) [Decidable p] : BitVec.ofBool (decide p) = if p then 1#1 else 0#1 := by
  split
  · next hp => rw [decide_eq_true hp]; rfl
  · next hp => rw [decide_eq_false hp]; rfl

theorem qEmpty_eq (s : State) : qEmpty s = if s.count = 0 then 1#1 else 0#1 := ofBool_decide _

theorem qFull_eq (s : State) : qFull s = if s.count = s.config.cap then 1#1 else 0#1 := ofBool_decide _

theorem qFull_eq_one_iff {s : State} : qFull s = 1#1 ↔ s.count = s.config.cap := by simp [qFull_eq]

theorem qFull_eq_zero_iff {s : State} : qFull s = 0#1 ↔ s.count ≠ s.config.cap := by simp [qFull_eq]

/-- The condition of `BusFull` (41_busqueue.md R114, R115). -/
theorem execEnqueue_eq_busFull_iff {w : FrameWord} {s : State} (hw : FrameWF w) :
    execEnqueue w s = .next (s.raise .busFull) ↔ s.count = s.config.cap := by
  constructor
  · intro h
    obtain ⟨hmalformed, -⟩ | ⟨-, hfull, -⟩ | ⟨-, -, happ⟩ := execEnqueue_next h
    · exact absurd hw hmalformed
    · exact hfull
    · have hcount : s.count = s.count + 1 := congrArg State.count happ
      omega
  · intro hfull
    rw [execEnqueue, if_pos hw, if_pos hfull]

/-- A full queue stops being full only through reset or CREATE (10_state.md R30). -/
theorem step_lowers_qFull {s t : State} (h : step s = .next t) (hs : qFull s = 1#1) (ht : qFull t = 0#1) :
    (∃ rest, s.hostIn = .reset :: rest) ∨ (∃ c n rest, s.hostIn = .resetDuring c n :: rest) ∨
      ∃ c rest, s.hostIn = .command c :: rest ∧ decode c = .ok .create := by
  have hfull : s.count = s.config.cap := qFull_eq_one_iff.1 hs
  have hleft : t.count ≠ t.config.cap := qFull_eq_zero_iff.1 ht
  obtain ⟨-, rfl⟩ | ⟨c, rest, hin, hc⟩ | ⟨rest, hin, -⟩ | ⟨c, n, rest, -, hin, -⟩ := step_next h
  · exact absurd hfull hleft
  · obtain ⟨r, rfl⟩ | ⟨hcreate, -⟩ | ⟨w, -, -, hroom, -⟩ := runCommand_changes hc
    · exact absurd hfull hleft
    · exact .inr (.inr ⟨c, rest, hin, hcreate⟩)
    · exact absurd hfull (Nat.ne_of_lt hroom)
  · exact .inl ⟨rest, hin⟩
  · exact .inr (.inl ⟨c, n, rest, hin⟩)

/-- The status outputs of the reset state of an admissible configuration (10_state.md R35). -/
theorem resetOf_outputs {cfg : Config} (h : 1 ≤ cfg.cap) :
    (qCount (State.resetOf cfg)).toNat = 0 ∧ qEmpty (State.resetOf cfg) = 1#1 ∧ qFull (State.resetOf cfg) = 0#1 :=
  ⟨toNat_qCount (Nat.two_pow_pos _), qEmpty_eq _, qFull_eq_zero_iff.2 (Nat.ne_of_lt h)⟩

/-! The statements of the family 10_state.md, settled. -/

/-- Settles O37. -/
theorem everyStepKeepsTheInvariant : Obligations.EveryStepKeepsTheInvariant :=
  fun _ _ => step_inv

/-- Settles O47: being alike but for hidden bits is kept by every step of the two blocks, and holds at the start. -/
theorem hiddenBitsNeverReachTheHost : Obligations.HiddenBitsNeverReachTheHost := by
  intro s u n hs hu hconfig _ hdelivered hqueue hhost
  obtain ⟨t, v, ht, hv, htv⟩ := SameShownState.run ⟨hs, hu, hconfig, hdelivered, hqueue, hhost⟩ n
  exact ⟨t, v, ht, hv, htv.delivered⟩

/-- Settles O11. -/
theorem statusOutputsFollowCount : Obligations.StatusOutputsFollowCount := by
  have hwidth : State.reset.config.cntW = 7 := by decide
  refine ⟨⟨hwidth, resetOf_outputs (cfg := Config.hardware) (by decide)⟩, fun s => ⟨fun hle => ?_, qEmpty_eq s,
    qFull_eq s, fun w hw => ?_, fun t => step_lowers_qFull⟩⟩
  · exact toNat_qCount (Nat.lt_of_le_of_lt hle (cap_lt_two_pow_cntW s.config))
  · exact qFull_eq_one_iff.trans (execEnqueue_eq_busFull_iff hw).symm

/-- Settles O41, by what the command word changed. -/
theorem onlyEnqueueWritesASlot : Obligations.OnlyEnqueueWritesASlot := by
  intro s t c rest i hin ht hchanged
  rw [step_of_command hin] at ht
  obtain ⟨r, rfl⟩ | ⟨-, rfl⟩ | ⟨w, hc, hw, hroom, rfl⟩ := runCommand_changes ht
  · exact absurd rfl hchanged
  · exact absurd rfl hchanged
  · have hi : i = s.count := by
      by_contra hne
      exact hchanged (State.readSlot_appended_ne (s := s.withHostIn rest) hne w)
    subst hi
    exact ⟨rfl, w, hc, hw, State.readSlot_appended_self hroom w, rfl⟩

/-- Settles O10. -/
theorem resetStateIsTheEmptyQueue : Obligations.ResetStateIsTheEmptyQueue :=
  ⟨rfl, rfl, fun _ hcap => ⟨rfl, rfl, State.queue_of_count_zero rfl, resetOf_outputs hcap⟩⟩

/-- Settles O25: the responses are `buildResponse` and `renderResponse`, functions of the operands alone. -/
theorem buildAndRenderIgnoreTheQueue : Obligations.BuildAndRenderIgnoreTheQueue :=
  ⟨fun ext idIn lenIn payCount payIn => ⟨buildResponse ext idIn lenIn payCount payIn, fun _ => rfl⟩,
    fun w => ⟨renderResponse w, fun _ => rfl⟩⟩

/-- Settles O38. -/
theorem resetStateMeetsTheInvariant : Obligations.ResetStateMeetsTheInvariant :=
  ⟨State.resetOf_inv (by decide), fun _ => State.resetOf_inv⟩

end Sys2Proof.Machine

namespace Sys2Proof.Machine

/-! SUPPORT. The two primitives of 20_memory.md R42: where they stop, and a read after a write. -/

theorem memWrite_of_le {cfg : Config} {i : Nat} (h : cfg.cap ≤ i) (m : Memory) (w : FrameWord) :
    memWrite cfg m i w = .error (.slotOutOfRange i) := if_neg (Nat.not_lt.2 h)

theorem memRead_of_le {cfg : Config} {i : Nat} (h : cfg.cap ≤ i) (m : Memory) :
    memRead cfg m i = .error (.slotOutOfRange i) := if_neg (Nat.not_lt.2 h)

theorem memRead_insert_self {cfg : Config} {i : Nat} (h : i < cfg.cap) (m : Memory) (w : FrameWord) :
    memRead cfg (Memory.insert i w m) i = .ok w :=
  memRead_ok.2 ⟨h, Memory.lookup_insert_self i w m⟩

theorem memRead_insert_ne {i j : Nat} (h : j ≠ i) (cfg : Config) (m : Memory) (w : FrameWord) :
    memRead cfg (Memory.insert i w m) j = memRead cfg m j := by
  rw [memRead, memRead, Memory.lookup_insert_ne h]

/-! SUPPORT. DRAIN answers from `count` and the slots alone, and only CREATE and ENQUEUE touch these (20_memory.md
R49). -/

theorem decode_encode_drain : decode (encode .drain) = .ok .drain := by decide

section Drains
variable {s : State} {beats : List FrameWord} (h : drainFrom s.config s.slots 0 s.count = .ok beats)
include h

/-- DRAIN of slots that can be rendered (41_busqueue.md R117). -/
theorem exec_drain_of_drainFrom : exec .drain s = .next (s.returnOk beats) := by
  simp only [exec, execDrain, h]

theorem step_drain_of_drainFrom {rest : List HostInput} (hin : s.hostIn = .command (encode .drain) :: rest) :
    step s = .next ((s.withHostIn rest).returnOk beats) := by
  rw [step_of_command hin, runCommand_of_decode_ok decode_encode_drain]
  exact exec_drain_of_drainFrom h

/-- Where DRAIN answers, so does every word but a CREATE and an ENQUEUE, and it changes nothing but the responses. -/
theorem runCommand_responds {c : CommandWord} (hcreate : decode c ≠ .ok .create)
    (henqueue : ∀ w : FrameWord, decode c ≠ .ok (.enqueue w)) : ∃ r, runCommand c s = .next (s.respond r) := by
  cases hc : decode c with
  | error e => exact ⟨_, runCommand_of_decode_error hc s⟩
  | ok i =>
    rw [runCommand_of_decode_ok hc]
    cases i with
    | build ext idIn lenIn payCount payIn => exact ⟨_, rfl⟩
    | render w => exact ⟨_, rfl⟩
    | create => exact absurd hc hcreate
    | enqueue w => exact absurd hc (henqueue w)
    | drain => exact ⟨_, exec_drain_of_drainFrom h⟩

end Drains

/-- Where DRAIN answers, a run takes any words but CREATEs and ENQUEUEs, gives each its response, changes nothing else,
and goes on with the inputs behind them. -/
theorem run_responds {cs : List CommandWord} {s : State} {beats : List FrameWord} {rest : List HostInput}
    (h : drainFrom s.config s.slots 0 s.count = .ok beats)
    (hcs : ∀ c ∈ cs, decode c ≠ .ok .create ∧ ∀ w : FrameWord, decode c ≠ .ok (.enqueue w))
    (hin : s.hostIn = cs.map HostInput.command ++ rest) (k : Nat) :
    ∃ rs : List Response, rs.length = cs.length ∧
      Sys2Proof.core.run (cs.length + k) s =
        Sys2Proof.core.run k { s with hostIn := rest, delivered := s.delivered ++ rs.map Delivery.completed } := by
  induction cs generalizing s with
  | nil =>
    refine ⟨[], rfl, ?_⟩
    rw [List.map_nil, List.append_nil, List.length_nil, Nat.zero_add, ← show s.hostIn = rest from hin]
  | cons c cs ih =>
    obtain ⟨⟨hcreate, henqueue⟩, hlater⟩ := List.forall_mem_cons.1 hcs
    obtain ⟨r, hr⟩ :=
      runCommand_responds (s := s.withHostIn (cs.map HostInput.command ++ rest)) h hcreate henqueue
    have hstep := (step_of_command hin).trans hr
    obtain ⟨rs, hlen, hrun⟩ := ih (s := (s.withHostIn (cs.map HostInput.command ++ rest)).respond r) h hlater rfl
    refine ⟨r :: rs, congrArg (· + 1) hlen, ?_⟩
    rw [List.length_cons, Nat.add_right_comm, run_succ _ hstep, hrun, State.respond_delivered, List.append_assoc]
    rfl

/-- Two DRAINs with such words between them give the same beats. -/
theorem run_drain_repeats {s : State} {beats : List FrameWord} {cs : List CommandWord}
    (h : drainFrom s.config s.slots 0 s.count = .ok beats)
    (hcs : ∀ c ∈ cs, decode c ≠ .ok .create ∧ ∀ w : FrameWord, decode c ≠ .ok (.enqueue w))
    (hin : s.hostIn = [.command (encode .drain)] ++ cs.map HostInput.command ++ [.command (encode .drain)]) :
    ∃ rs : List Response, rs.length = cs.length ∧
      Sys2Proof.core.run (cs.length + 2) s = .next { s with
        hostIn := []
        delivered := s.delivered ++ [.completed ⟨.ok, beats⟩] ++ rs.map Delivery.completed ++
          [.completed ⟨.ok, beats⟩] } := by
  have hfirst := step_drain_of_drainFrom h hin
  obtain ⟨rs, hlen, hrun⟩ := run_responds
    (s := (s.withHostIn (cs.map HostInput.command ++ [.command (encode .drain)])).returnOk beats) h hcs rfl 1
  have hlast := step_drain_of_drainFrom (rest := []) (s := { s with
    hostIn := [.command (encode .drain)]
    delivered := s.delivered ++ [.completed ⟨.ok, beats⟩] ++ rs.map Delivery.completed }) h rfl
  exact ⟨rs, hlen, (run_succ (cs.length + 1) hfirst).trans (hrun.trans (run_succ 0 hlast))⟩

/-- What ENQUEUE of a well-formed word with room for it does to `count` and to the slots (41_busqueue.md R114). -/
theorem exec_enqueue_stores {w : FrameWord} {s : State} (hw : FrameWF w) (hroom : s.count < s.config.cap) :
    ∃ t : State, exec (.enqueue w) s = .next t ∧ t.config = s.config ∧ t.count = s.count + 1 ∧
      t.readSlot s.count = .ok w ∧ ∀ a : Nat, a ≠ s.count → t.readSlot a = s.readSlot a :=
  ⟨_, execEnqueue_room hw hroom, rfl, rfl, State.readSlot_appended_self hroom w,
    fun _ ha => State.readSlot_appended_ne (s := s) ha w⟩

/-- Two ENQUEUEs of a well-formed word, with room for both, store it twice (20_memory.md R49). -/
theorem exec_enqueue_twice {w : FrameWord} {s : State} (hw : FrameWF w) (hroom : s.count + 2 ≤ s.config.cap) :
    ∃ t u : State, exec (.enqueue w) s = .next t ∧ exec (.enqueue w) t = .next u ∧ u.count = s.count + 2 ∧
      u.readSlot s.count = .ok w ∧ u.readSlot (s.count + 1) = .ok w := by
  obtain ⟨t, ht, hconfig, hcount, hread, -⟩ := exec_enqueue_stores hw (s := s) (by omega)
  obtain ⟨u, hu, -, hcount', hread', hkept⟩ := exec_enqueue_stores hw (s := t) (by rw [hconfig, hcount]; omega)
  rw [hcount] at hcount' hread' hkept
  exact ⟨t, u, ht, hu, hcount', (hkept s.count (by omega)).trans hread, hread'⟩

/-! The statements of the family 20_memory.md, settled. -/

/-- Settles O32: the slots below `count` that the first DRAIN rendered stand there unchanged for every later one. -/
theorem drainRepeatsAndEnqueueDoesNot : Obligations.DrainRepeatsAndEnqueueDoesNot := by
  refine ⟨fun s u cs hdrain hcs hin => ?_, fun s t hdrain => ?_, fun w s => exec_enqueue_twice⟩
  · obtain ⟨beats, hbeats, -⟩ := execDrain_next hdrain
    exact ⟨beats, run_drain_repeats hbeats hcs hin⟩
  · obtain ⟨beats, hbeats, rfl⟩ := execDrain_next hdrain
    exact ⟨beats, _, exec_drain_of_drainFrom (s := s.returnOk beats) hbeats, rfl, rfl⟩

/-- Settles O26. -/
theorem slotReadsWhatWasLastWritten : Obligations.SlotReadsWhatWasLastWritten := by
  intro cfg m i w
  split
  · next hi =>
    exact ⟨_, memWrite_of_lt hi m w, memRead_insert_self hi m w, fun j hj => memRead_insert_ne hj cfg m w,
      Memory.wf_insert w hi⟩
  · next hi => exact ⟨memWrite_of_le (Nat.not_lt.1 hi) m w, memRead_of_le (Nat.not_lt.1 hi) m⟩

end Sys2Proof.Machine

namespace Sys2Proof.Machine

/-! SUPPORT. The fields of a BUILD word (30_encoding.md R61). -/

section BuildWord
variable (ext : IdKind) (idIn : BitVec 32) (lenIn : BitVec 8) (payCount : BitVec 4) (payIn : BitVec 64)

/-- A slice of a BUILD word, over the sum of the widths: the lemmas on appended words then apply. -/
theorem extractLsb'_encode_build (lo len : Nat) :
    (encode (.build ext idIn lenIn payCount payIn)).extractLsb' lo len =
      BitVec.extractLsb' (n := 4 + 1 + 32 + 8 + 4 + 64 + 15) lo len
        (1#4 ++ ext.tag ++ idIn ++ lenIn ++ payCount ++ payIn ++ 0#15) := rfl

/-- The opcode, the operands and the reserved bits of a BUILD word are the parts it was made of. -/
theorem fields_encode_build :
    opcodeOf (encode (.build ext idIn lenIn payCount payIn)) = 1#4 ∧
    (encode (.build ext idIn lenIn payCount payIn)).extractLsb 123 123 = ext.tag ∧
    (encode (.build ext idIn lenIn payCount payIn)).extractLsb 122 91 = idIn ∧
    (encode (.build ext idIn lenIn payCount payIn)).extractLsb 90 83 = lenIn ∧
    (encode (.build ext idIn lenIn payCount payIn)).extractLsb 82 79 = payCount ∧
    (encode (.build ext idIn lenIn payCount payIn)).extractLsb 78 15 = payIn ∧
    (encode (.build ext idIn lenIn payCount payIn)).extractLsb 14 0 = 0#15 := by
  simp only [opcodeOf, BitVec.extractLsb, extractLsb'_encode_build]
  simp (disch := decide) only [BitVec.extractLsb'_append_eq_of_le, BitVec.extractLsb'_append_eq_of_add_le]
  simp

/-- A word is its opcode, the slices BUILD's operands are taken from, and the reserved bits. -/
theorem build_slices (c : CommandWord) :
    opcodeOf c ++ c.extractLsb 123 123 ++ c.extractLsb 122 91 ++ c.extractLsb 90 83 ++ c.extractLsb 82 79 ++
      c.extractLsb 78 15 ++ c.extractLsb 14 0 = c := by
  simp only [opcodeOf, BitVec.extractLsb]
  repeat rw [BitVec.extractLsb'_append_extractLsb'_eq_extractLsb' (by decide)]
  exact BitVec.extractLsb'_eq_self

end BuildWord

section Decode
variable {c : CommandWord}

theorem decode_of_build (hop : opcodeOf c = 1#4) (hres : c.extractLsb 14 0 = 0#15) :
    decode c = .ok (.build (IdKind.ofTag (c.extractLsb 123 123)) (c.extractLsb 122 91) (c.extractLsb 90 83)
      (c.extractLsb 82 79) (c.extractLsb 78 15)) := by
  rw [decode, if_pos hop, if_pos hres]

theorem decode_of_render (hop : opcodeOf c = 2#4) : decode c = .ok (.render (c.extractLsb 123 0)) := by
  rw [decode, hop]; rfl

theorem decode_of_enqueue (hop : opcodeOf c = 4#4) : decode c = .ok (.enqueue (c.extractLsb 123 0)) := by
  rw [decode, hop]; rfl

end Decode

theorem decode_encode (i : Instr) : decode (encode i) = .ok i := by
  cases i with
  | build ext idIn lenIn payCount payIn =>
    obtain ⟨hop, hext, hid, hlen, hcount, hpay, hres⟩ := fields_encode_build ext idIn lenIn payCount payIn
    rw [decode_of_build hop hres, hext, hid, hlen, hcount, hpay, IdKind.ofTag_tag]
  | render w => exact decode_encode_render w
  | create => decide
  | enqueue w => exact decode_encode_enqueue w
  | drain => exact decode_encode_drain

/-! SUPPORT. The words that are no command (30_encoding.md R79), and that the decoder refuses exactly these. -/

/-- The three clauses of 30_encoding.md R79. -/
abbrev IllegalWord (c : CommandWord) : Prop :=
  (opcodeOf c).toNat = 0 ∨ 6 ≤ (opcodeOf c).toNat ∨ (opcodeOf c = 1#4 ∧ c.extractLsb 14 0 ≠ 0#15) ∨
    ((opcodeOf c = 3#4 ∨ opcodeOf c = 5#4) ∧ c.extractLsb 123 0 ≠ 0#124)

/-- An opcode is that of a row of the table, or one of clause 1 of 30_encoding.md R79. -/
theorem opcode_cases (op : BitVec 4) :
    op = 1#4 ∨ op = 2#4 ∨ op = 3#4 ∨ op = 4#4 ∨ op = 5#4 ∨
      ((op.toNat = 0 ∨ 6 ≤ op.toNat) ∧ op ≠ 1#4 ∧ op ≠ 2#4 ∧ op ≠ 3#4 ∧ op ≠ 4#4 ∧ op ≠ 5#4) := by
  revert op; decide

/-- The decoder on any word: a command whose encoding is the word, or a refusal of a word of R79. -/
theorem decode_cases (c : CommandWord) :
    (¬ IllegalWord c ∧ ∃ i, decode c = .ok i ∧ encode i = c) ∨ (IllegalWord c ∧ ∃ e, decode c = .error e) := by
  have hc := opcode_operand c
  obtain hop | hop | hop | hop | hop | ⟨hop, h1, h2, h3, h4, h5⟩ := opcode_cases (opcodeOf c)
  · by_cases hres : c.extractLsb 14 0 = 0#15
    · have hslices := build_slices c
      rw [hop, hres, ← IdKind.tag_ofTag (c.extractLsb 123 123)] at hslices
      exact .inl ⟨by simp [IllegalWord, hop, hres], _, decode_of_build hop hres, hslices⟩
    · exact .inr ⟨by simp [IllegalWord, hop, hres], .buildReserved, by simp [decode, hop, hres]⟩
  · exact .inl ⟨by simp [IllegalWord, hop], _, decode_of_render hop, by rwa [hop] at hc⟩
  · by_cases hres : c.extractLsb 123 0 = 0#124
    · rw [hop, hres] at hc
      exact .inl ⟨by simp [IllegalWord, hop, hres], .create, by simp [decode, hop, hres], hc⟩
    · exact .inr ⟨by simp [IllegalWord, hop, hres], .createReserved, by simp [decode, hop, hres]⟩
  · exact .inl ⟨by simp [IllegalWord, hop], _, decode_of_enqueue hop, by rwa [hop] at hc⟩
  · by_cases hres : c.extractLsb 123 0 = 0#124
    · rw [hop, hres] at hc
      exact .inl ⟨by simp [IllegalWord, hop, hres], .drain, by simp [decode, hop, hres], hc⟩
    · exact .inr ⟨by simp [IllegalWord, hop, hres], .drainReserved, by simp [decode, hop, hres]⟩
  · exact .inr ⟨hop.imp_right .inl, .opcode (opcodeOf c), by simp [decode, h1, h2, h3, h4, h5]⟩

theorem encode_of_decode {c : CommandWord} {i : Instr} (h : decode c = .ok i) : encode i = c := by
  obtain ⟨-, j, hj, hjc⟩ | ⟨-, e, he⟩ := decode_cases c
  · cases h.symm.trans hj
    exact hjc
  · cases h.symm.trans he

/-! SUPPORT. The rows of the opcode table a word selects (30_encoding.md R78). -/

/-- What a match says of a slice of the word, where the mask has all of the slice's bits set. -/
theorem extractLsb_of_and_eq {c m v : CommandWord} {hi lo : Nat} (hm : m.extractLsb hi lo = BitVec.allOnes _)
    (h : c &&& m = v) : c.extractLsb hi lo = v.extractLsb hi lo := by
  rw [← h, BitVec.extractLsb_and, hm, BitVec.and_allOnes]

/-- The rows have different mnemonics. -/
theorem eq_of_mnemonic_eq {r r' : OpcodeRow} (hr : r ∈ opcodeTable) (hr' : r' ∈ opcodeTable)
    (h : r.mnemonic = r'.mnemonic) : r = r' :=
  List.inj_on_of_nodup_map (by decide) hr hr' h

/-- Each command's word selects the command's row. -/
theorem encode_selects_row (i : Instr) : Laws.TableRow.Statement i := by
  cases i with
  | build ext idIn lenIn payCount payIn => exact Laws.TableRow.build ext idIn lenIn payCount payIn
  | render w => exact Laws.TableRow.render w
  | create => exact Laws.TableRow.create
  | enqueue w => exact Laws.TableRow.enqueue w
  | drain => exact Laws.TableRow.drain

/-- A word that selects a row decodes to a command of the row. -/
theorem decode_of_selects {r : OpcodeRow} (hr : r ∈ opcodeTable) {c : CommandWord} (h : c &&& r.mask = r.value) :
    ∃ i, decode c = .ok i ∧ i.mnemonic = r.mnemonic := by
  simp only [opcodeTable, List.mem_cons, List.not_mem_nil, or_false] at hr
  obtain rfl | rfl | rfl | rfl | rfl := hr
  · have hop : opcodeOf c = 1#4 := extractLsb_of_and_eq (by decide) h
    have hres : c.extractLsb 14 0 = 0#15 := extractLsb_of_and_eq (by decide) h
    exact ⟨_, decode_of_build hop hres, rfl⟩
  · exact ⟨_, decode_of_render (extractLsb_of_and_eq (by decide) h), rfl⟩
  · have hc : c = encode .create := BitVec.and_allOnes.symm.trans h
    exact ⟨.create, by rw [hc]; decide, rfl⟩
  · exact ⟨_, decode_of_enqueue (extractLsb_of_and_eq (by decide) h), rfl⟩
  · have hc : c = encode .drain := BitVec.and_allOnes.symm.trans h
    exact ⟨.drain, by rw [hc]; decide, rfl⟩

/-- A word selects a row exactly where it decodes to a command of the row. -/
theorem selects_iff {r : OpcodeRow} (hr : r ∈ opcodeTable) (c : CommandWord) :
    c &&& r.mask = r.value ↔ ∃ i, decode c = .ok i ∧ i.mnemonic = r.mnemonic := by
  refine ⟨decode_of_selects hr, fun ⟨i, hi, hmnemonic⟩ => ?_⟩
  obtain ⟨r', hr', hmnemonic', hselects⟩ := encode_selects_row i
  rwa [encode_of_decode hi, eq_of_mnemonic_eq hr' hr (hmnemonic'.trans hmnemonic)] at hselects

theorem selectedRows_of_decode_ok {c : CommandWord} {i : Instr} (h : decode c = .ok i) :
    selectedRows c = [i.mnemonic] := by
  have hrows : opcodeTable.filter (fun r => c &&& r.mask == r.value) =
      opcodeTable.filter (fun r => i.mnemonic == r.mnemonic) :=
    List.filter_congr fun r hr => by
      rw [Bool.eq_iff_iff, beq_iff_eq, beq_iff_eq, selects_iff hr, h]
      simp
  rw [selectedRows, hrows]
  cases i <;> rfl

theorem selectedRows_of_decode_error {c : CommandWord} {e : Illegal} (h : decode c = .error e) :
    selectedRows c = [] := by
  rw [selectedRows, List.filter_eq_nil_iff.2 fun r hr => ?_, List.map_nil]
  rw [beq_iff_eq, selects_iff hr, h]
  simp

/-! SUPPORT. `pack` and `unpack` (30_encoding.md R63, R67, R69): the fields of a packed Frame, and which words are
packed Frames. -/

section Pack
variable (f : Frame)

@[simp] theorem sofField_pack : sofField (pack f) = f.sof := by simp [pack]
@[simp] theorem ideField_pack : ideField (pack f) = idTag f.identifier := by simp [pack]
@[simp] theorem idField_pack : idField (pack f) = idValue f.identifier := by simp [pack]
@[simp] theorem rtrField_pack : rtrField (pack f) = f.rtr := by simp [pack]
@[simp] theorem dlcField_pack : dlcField (pack f) = BitVec.ofNat 4 f.dlc.val := by simp [pack]
@[simp] theorem dataField_pack : dataField (pack f) = joinBytes (fun k => f.data[k]) := by simp [pack]
@[simp] theorem crcField_pack : crcField (pack f) = f.crc := by simp [pack]
@[simp] theorem ackField_pack : ackField (pack f) = f.ack := by simp [pack]
@[simp] theorem eofField_pack : eofField (pack f) = f.eof := by simp [pack]

end Pack

/-- The number of a Standard identifier, bits `[103:93]`, is the low part of the `id` field. -/
theorem standardId_eq (w : FrameWord) : w.extractLsb 103 93 = (idField w).extractLsb' 0 11 := by
  rw [idField, BitVec.extractLsb, BitVec.extractLsb, extractLsb'_slice _ _ _ _ _ (by decide)]

/-- A Standard number, right-aligned in the 29-bit field. -/
theorem setWidth_standard (v : BitVec 11) : v.setWidth 29 = (0#18 ++ v : BitVec 29) :=
  BitVec.setWidth_eq_append (by decide)

/-- A Standard number leaves the upper 18 bits of the field clear (30_encoding.md R64). -/
theorem upper_setWidth_standard (v : BitVec 11) : (v.setWidth 29).extractLsb' 11 18 = 0#18 := by
  rw [setWidth_standard]
  exact (BitVec.extractLsb'_append_eq_of_le (xhi := 0#18) (xlo := v) (by decide)).trans (by simp)

theorem lower_setWidth_standard (v : BitVec 11) : (v.setWidth 29).extractLsb' 0 11 = v := by
  rw [setWidth_standard]
  exact (BitVec.extractLsb'_append_eq_of_add_le (xhi := 0#18) (xlo := v) (by decide)).trans (by simp)

/-- A field whose upper 18 bits are clear holds a Standard number. -/
theorem setWidth_lower_of_upper {x : BitVec 29} (h : x.extractLsb' 11 18 = 0#18) :
    (x.extractLsb' 0 11).setWidth 29 = x := by
  rw [setWidth_standard, ← h, BitVec.extractLsb'_append_extractLsb'_eq_extractLsb' (by decide)]
  exact BitVec.extractLsb'_eq_self

/-- The identifier a tag and an `id` field spell (30_encoding.md R64, R67). -/
def identifierOf (tag : BitVec 1) (id : BitVec 29) : Identifier :=
  if tag = 0#1 then .standard (id.extractLsb' 0 11) else .extended id

theorem identifierOf_idTag_idValue (i : Identifier) : identifierOf (idTag i) (idValue i) = i := by
  cases i with
  | standard v => exact congrArg Identifier.standard (lower_setWidth_standard v)
  | extended v => rfl

/-- The tag and the field of a well-formed word are those of the identifier they spell. -/
theorem idTag_identifierOf (b : BitVec 1) (x : BitVec 29) : idTag (identifierOf b x) = b := by
  obtain rfl | rfl : b = 0#1 ∨ b = 1#1 := by revert b; decide
  · rfl
  · rfl

theorem idValue_identifierOf {b : BitVec 1} {x : BitVec 29} (h : b = 1#1 ∨ x.extractLsb' 11 18 = 0#18) :
    idValue (identifierOf b x) = x := by
  by_cases hb : b = 0#1
  · rw [identifierOf, if_pos hb]
    exact setWidth_lower_of_upper (h.resolve_left (by rw [hb]; decide))
  · rw [identifierOf, if_neg hb]
    rfl

/-- A number that fits its bits is not truncated by them. -/
theorem toNat_ofNat_of_lt {n x : Nat} (h : x < 2 ^ n) : (BitVec.ofNat n x).toNat = x :=
  (BitVec.toNat_ofNat x n).trans (Nat.mod_eq_of_lt h)

/-- The four bits of `dlc` hold every data length. -/
theorem toNat_dlc (d : Fin 9) : (BitVec.ofNat 4 d.val).toNat = d.val :=
  toNat_ofNat_of_lt (by omega)

theorem frameWF_pack (f : Frame) : FrameWF (pack f) := by
  rw [FrameWF, upperId_eq, dlcField_pack, ideField_pack, idField_pack, toNat_dlc]
  refine ⟨Nat.le_of_lt_succ f.dlc.isLt, ?_⟩
  cases f.identifier with
  | standard v => exact .inr (upper_setWidth_standard v)
  | extended v => exact .inl rfl

/-- `unpack` of a well-formed word, by its fields. -/
theorem unpack_of_frameWF {w : FrameWord} (h : FrameWF w) :
    unpack w = some ⟨sofField w, identifierOf (ideField w) (idField w), rtrField w, Fin.ofNat 9 (dlcField w).toNat,
      Vector.ofFn (byteAt (dataField w)), crcField w, ackField w, eofField w⟩ := by
  rw [unpack, if_pos h, standardId_eq]
  rfl

theorem unpack_pack (f : Frame) : unpack (pack f) = some f := by
  have hdata : Vector.ofFn (byteAt (joinBytes fun k => f.data[k])) = f.data := by
    ext k hk; simp
  simp only [unpack_of_frameWF (frameWF_pack f), sofField_pack, ideField_pack, idField_pack, rtrField_pack,
    dlcField_pack, dataField_pack, crcField_pack, ackField_pack, eofField_pack, toNat_dlc,
    identifierOf_idTag_idValue, hdata, Fin.ofNat_val_eq_self]

theorem pack_unpack {w : FrameWord} (h : FrameWF w) : ∃ f, unpack w = some f ∧ pack f = w := by
  refine ⟨_, unpack_of_frameWF h, ?_⟩
  obtain ⟨hdlc, hid⟩ := h
  rw [upperId_eq] at hid
  have hkept : BitVec.ofNat 4 (Fin.ofNat 9 (dlcField w).toNat).val = dlcField w := by
    rw [Fin.val_ofNat, Nat.mod_eq_of_lt (show _ < 9 from Nat.lt_succ_of_le hdlc), BitVec.ofNat_toNat,
      BitVec.setWidth_eq]
  have hdata : joinBytes (fun k => (Vector.ofFn (byteAt (dataField w)))[k]) = dataField w := by simp
  rw [pack, idTag_identifierOf, idValue_identifierOf hid, hkept, hdata, frameWord_fields]

/-- The well-formed words are the packed Frames. -/
theorem exists_pack_eq_iff (w : FrameWord) : (∃ f, pack f = w) ↔ FrameWF w := by
  refine ⟨fun ⟨f, hf⟩ => hf ▸ frameWF_pack f, fun h => ?_⟩
  obtain ⟨f, -, hf⟩ := pack_unpack h
  exact ⟨f, hf⟩

theorem exec_render_malformed {w : FrameWord} (h : ¬ FrameWF w) (s : State) :
    exec (.render w) s = .next (s.raise .malformedFrame) := by
  rw [exec, execRender, renderResponse, if_neg h]
  rfl

theorem exec_enqueue_malformed {w : FrameWord} (h : ¬ FrameWF w) (s : State) :
    exec (.enqueue w) s = .next (s.raise .malformedFrame) := by
  rw [exec, execEnqueue, if_neg h]

/-! SUPPORT. BUILD's answers (40_framecodec.md R90 to R95), and the fields of the word it makes. -/

theorem idWidth_eq (ext : IdKind) : idWidth ext = if ext = .extended then 29 else 11 := by
  cases ext <;> rfl

theorem tag_eq (ext : IdKind) : ext.tag = if ext = .extended then 1#1 else 0#1 := by
  cases ext <;> rfl

section Build
variable {ext : IdKind} {idIn : BitVec 32} {lenIn : BitVec 8} {payCount : BitVec 4} (payIn : BitVec 64) (s : State)

theorem exec_build_of_error {e : Status} (h : buildError ext idIn lenIn payCount = some e) :
    exec (.build ext idIn lenIn payCount payIn) s = .next (s.raise e) := by
  rw [exec, execBuild, buildResponse, h]
  rfl

theorem exec_build_of_no_error (h : buildError ext idIn lenIn payCount = none) :
    exec (.build ext idIn lenIn payCount payIn) s = .next (s.returnOk [buildFrame ext idIn lenIn payIn]) := by
  rw [exec, execBuild, buildResponse, h]
  rfl

end Build

/-- `pay_count` matters by the outcome of `pay_count < len_in` alone (30_encoding.md R80). -/
theorem buildError_congr {n m : BitVec 4} {lenIn : BitVec 8} (h : n.toNat < lenIn.toNat ↔ m.toNat < lenIn.toNat)
    (ext : IdKind) (idIn : BitVec 32) : buildError ext idIn lenIn n = buildError ext idIn lenIn m := by
  simp only [buildError, h]

/-- The payload matters by its first `len_in` bytes alone (30_encoding.md R80). -/
theorem buildFrame_congr {p q : BitVec 64} {lenIn : BitVec 8}
    (h : ∀ k : Fin 8, k.val < lenIn.toNat → byteAt p k = byteAt q k) (ext : IdKind) (idIn : BitVec 32) :
    buildFrame ext idIn lenIn p = buildFrame ext idIn lenIn q := by
  rw [buildFrame, buildFrame, keepBytes_congr h]

section BuildFrame
variable (ext : IdKind) (idIn : BitVec 32) (lenIn : BitVec 8) (payIn : BitVec 64)

@[simp] theorem ideField_buildFrame : ideField (buildFrame ext idIn lenIn payIn) = ext.tag := by simp [buildFrame]
@[simp] theorem idField_buildFrame : idField (buildFrame ext idIn lenIn payIn) = idBits ext idIn := by
  simp [buildFrame]
@[simp] theorem dlcField_buildFrame : dlcField (buildFrame ext idIn lenIn payIn) = lenIn.extractLsb 3 0 := by
  simp [buildFrame]
@[simp] theorem dataField_buildFrame :
    dataField (buildFrame ext idIn lenIn payIn) = keepBytes lenIn.toNat payIn := by simp [buildFrame]

end BuildFrame

/-- A number that fits the low bits is not truncated by taking them. -/
theorem toNat_extractLsb_zero {n hi : Nat} {x : BitVec n} (h : x.toNat < 2 ^ (hi + 1)) :
    (x.extractLsb hi 0).toNat = x.toNat :=
  Nat.mod_eq_of_lt h

/-- An identifier that fits its variant is not truncated (40_framecodec.md R92). -/
theorem toNat_idBits {ext : IdKind} {idIn : BitVec 32} (h : idIn.toNat < 2 ^ idWidth ext) :
    (idBits ext idIn).toNat = idIn.toNat := by
  cases ext with
  | standard => exact (BitVec.toNat_setWidth_of_le (by decide)).trans (toNat_extractLsb_zero h)
  | extended => exact toNat_extractLsb_zero h

/-! SUPPORT. The host's encoding of a payload sequence (30_encoding.md R72). -/

theorem byteAt_payloadWord (p : List Byte) (k : Fin 8) : byteAt (payloadWord p) k = p.getD k.val 0#8 :=
  byteAt_joinBytes (fun k => p.getD k.val 0#8) k

/-- Saturating the size at 15 keeps its comparison with every legal length. -/
theorem toNat_payloadCount_lt_iff {p : List Byte} {len : Nat} (h : len ≤ Config.maxDlc) :
    (payloadCount p).toNat < len ↔ p.length < len := by
  have h8 : len ≤ 8 := h
  rw [payloadCount, BitVec.toNat_ofNat]
  omega

theorem assemble_build {id len : Nat} (hid : id < 2 ^ 32) (hlen : len < 2 ^ 8) (kind : IdKind) (p : List Byte) :
    assemble (.build kind id len p) =
      some (encode (.build kind (BitVec.ofNat 32 id) (BitVec.ofNat 8 len) (payloadCount p) (payloadWord p))) := by
  have hfits : (AsmLine.build kind id len p).wellFormed = true :=
    Bool.and_eq_true_iff.2 ⟨decide_eq_true hid, decide_eq_true hlen⟩
  rw [assemble, if_pos hfits]

/-- A byte below the size of the sequence is in the payload word. -/
theorem getElem?_eq_byteAt_payloadWord {p : List Byte} {k : Fin 8} (h : k.val < p.length) :
    p[k.val]? = some (byteAt (payloadWord p) k) := by
  rw [byteAt_payloadWord, List.getElem?_eq_getElem h, List.getD_eq_getElem p 0#8 h]

section HostPayload
variable {id len : Nat} (hid : id < 2 ^ 32) (hlen : len < 2 ^ 8) (kind : IdKind) (p : List Byte)
include hid hlen

/-- BUILD's first error for a host's line, by its numbers and the size of its sequence. -/
theorem buildError_payload :
    buildError kind (BitVec.ofNat 32 id) (BitVec.ofNat 8 len) (payloadCount p) =
      if 8 < len then some .invalidLength
      else if 2 ^ idWidth kind ≤ id then some .identifierOutOfRange
      else if p.length < len then some .payloadTooShort
      else none := by
  rw [buildError, toNat_ofNat_of_lt hid, toNat_ofNat_of_lt hlen]
  refine if_ctx_congr Iff.rfl (fun _ => rfl) fun hlen8 => ?_
  simp only [toNat_payloadCount_lt_iff (Nat.not_lt.1 hlen8)]

/-- Where there is no error, the frame made has the line's kind and numbers and the first bytes of its sequence. -/
theorem buildFrame_payload (hlen8 : len ≤ 8) (hwidth : id < 2 ^ idWidth kind) (hsize : len ≤ p.length) :
    let f := buildFrame kind (BitVec.ofNat 32 id) (BitVec.ofNat 8 len) (payloadWord p)
    ideField f = kind.tag ∧ (idField f).toNat = id ∧ (dlcField f).toNat = len ∧
      ∀ k : Fin 8, k.val < len → p[k.val]? = some (f.extractLsb' (80 - 8 * k.val) 8) := by
  have hidIn : (BitVec.ofNat 32 id).toNat = id := toNat_ofNat_of_lt hid
  have hlenIn : (BitVec.ofNat 8 len).toNat = len := toNat_ofNat_of_lt hlen
  refine ⟨ideField_buildFrame .., ?_, ?_, fun k hk => ?_⟩
  · rw [idField_buildFrame, toNat_idBits (hidIn.symm ▸ hwidth), hidIn]
  · rw [dlcField_buildFrame, toNat_extractLsb_zero (by omega), hlenIn]
  · rw [← byteAt_dataField, dataField_buildFrame, byteAt_keepBytes, hlenIn, if_pos hk]
    exact getElem?_eq_byteAt_payloadWord (Nat.lt_of_lt_of_le hk hsize)

end HostPayload

/-! SUPPORT. The beats of a response (30_encoding.md R74). -/

/-- What a command does with its beats: none without success, and with success as many as the command and the number
of stored frames say. -/
theorem listExec_beats (cfg : Config) (i : Instr) (q : List FrameWord) :
    ((listExec cfg i q).2.status ≠ .ok → (listExec cfg i q).2.beats = []) ∧
    ((listExec cfg i q).2.status = .ok → (listExec cfg i q).2.beats.length =
      match i with
      | .build _ _ _ _ _ => 1
      | .render _ => 1
      | .create => 0
      | .enqueue _ => 0
      | .drain => q.length) := by
  cases i with
  | build ext idIn lenIn payCount payIn =>
    obtain ⟨e, he, hr⟩ | ⟨-, hr⟩ := buildResponse_cases ext idIn lenIn payCount payIn
    · have hne : e ≠ .ok := by obtain rfl | rfl | rfl := buildError_some he <;> decide
      simp [listExec, hr, hne]
    · simp [listExec, hr]
  | render w => obtain ⟨-, hr⟩ | ⟨-, hr⟩ := renderResponse_cases w <;> simp [listExec, hr]
  | create => simp [listExec]
  | enqueue w => rw [listExec]; split_ifs <;> simp
  | drain => simp [listExec]

/-! The statements of the family 30_encoding.md, settled. -/

/-- Settles O2: for BUILD by the fields of its word, one slice for each operand. -/
theorem decodeOfEncodeIsTheCommand : Obligations.DecodeOfEncodeIsTheCommand := decode_encode

/-- Settles O3: where the decoder answers, its operands and the bits it requires to be zero are the whole word. -/
theorem encodeOfDecodeIsTheWord : Obligations.EncodeOfDecodeIsTheWord := fun _ _ => encode_of_decode

/-- Settles O4: a word selects a row exactly where it decodes to a command of the row. -/
theorem everyWordSelectsItsOneRow : Obligations.EveryWordSelectsItsOneRow := by
  intro c
  cases hc : decode c with
  | ok i => exact selectedRows_of_decode_ok hc
  | error e => exact selectedRows_of_decode_error hc

/-- Settles O6: the decoder refuses exactly the words of 30_encoding.md R79. -/
theorem illegalWordsAnsweredIllegalCommand : Obligations.IllegalWordsAnsweredIllegalCommand := by
  refine ⟨rfl, fun c s rest hin => ?_⟩
  change if IllegalWord c then _ else _
  obtain ⟨hlegal, i, hi, -⟩ | ⟨hillegal, e, he⟩ := decode_cases c
  · rw [if_neg hlegal]
    exact ⟨i, hi⟩
  · rw [if_pos hillegal, step_of_command hin, runCommand_of_decode_error he]
    rfl

/-- Settles O7. -/
theorem packingIsABijectionOntoWellFormedWords : Obligations.PackingIsABijectionOntoWellFormedWords :=
  ⟨fun f => ⟨frameWF_pack f, unpack_pack f⟩, fun _ => pack_unpack⟩

/-- Settles O8: the words that are packings are the well-formed ones, which both commands test for first. -/
theorem malformedWordsSpellNoFrameAndAreRefused : Obligations.MalformedWordsSpellNoFrameAndAreRefused := by
  intro w
  change if FrameWF w then _ else _
  split
  · next h => exact (exists_pack_eq_iff w).2 h
  · next h =>
    exact ⟨fun hpack => h ((exists_pack_eq_iff w).1 hpack), fun s =>
      ⟨exec_render_malformed h s, exec_enqueue_malformed h s⟩⟩

/-- Settles O9: the tag, and the slices of the `id` field, of a packed Frame. -/
theorem identifierEncoding : Obligations.IdentifierEncoding := by
  refine ⟨fun f v hf => ?_, fun f v hf => ?_, fun f v hsame => ?_, fun w htag hupper => ?_⟩
  · have hide : ideField (pack f) = 0#1 := by rw [ideField_pack, hf]; rfl
    have hid : idField (pack f) = v.setWidth 29 := by rw [idField_pack, hf]; rfl
    rw [standardId_eq, upperId_eq, hid]
    exact ⟨hide, lower_setWidth_standard v, upper_setWidth_standard v⟩
  · have hide : ideField (pack f) = 1#1 := by rw [ideField_pack, hf]; rfl
    have hid : idField (pack f) = v := by rw [idField_pack, hf]; rfl
    exact ⟨hide, hid⟩
  · have htags := congrArg ideField hsame
    rw [ideField_pack, ideField_pack] at htags
    exact absurd (show (0#1 : BitVec 1) = 1#1 from htags) (by decide)
  · refine if_neg fun hwf => ?_
    obtain ⟨-, hide | hclear⟩ := hwf
    · exact absurd (hide.symm.trans htag) (by decide)
    · exact hupper hclear

/-- Settles O19: the error condition and the frame word are the same for both. -/
theorem buildIgnoresUnusedOperandBits : Obligations.BuildIgnoresUnusedOperandBits := by
  intro ext idIn lenIn n m p q s hbytes hcount
  simp only [exec, execBuild, buildResponse, buildError_congr hcount, buildFrame_congr hbytes]

/-- Settles O20: `buildError` on the encoded operands is the source's test on the sequence. -/
theorem hostPayloadEncodingLosesNothing : Obligations.HostPayloadEncodingLosesNothing := by
  intro kind id len p s hid hlen
  refine ⟨_, _, assemble_build hid hlen kind p, decode_encode _, ?_⟩
  have herror := buildError_payload hid hlen kind p
  rw [← idWidth_eq, ← tag_eq]
  split_ifs at herror ⊢ with hlen8 hwidth hsize
  · exact exec_build_of_error _ s herror
  · exact exec_build_of_error _ s herror
  · exact exec_build_of_error _ s herror
  · exact ⟨_, exec_build_of_no_error _ s herror, buildFrame_payload hid hlen kind p (Nat.not_lt.1 hlen8)
      (Nat.not_le.1 hwidth) (Nat.not_lt.1 hsize)⟩

/-- Settles O45: the response is that of the list view's function, whose list has `count` words. -/
theorem beatsPerCommand : Obligations.BeatsPerCommand := by
  intro s c rest h hin
  obtain ⟨t, ht, -, hdelivered, -⟩ := step_command_refines h hin
  refine ⟨t, _, ht, hdelivered, ?_⟩
  cases hc : decode c with
  | ok i =>
    rw [listStep_of_decode_ok hc, ← (drainFrom_queue h).2]
    have hbeats := listExec_beats s.config i s.queue
    cases i <;> exact hbeats
  | error e =>
    rw [listStep_of_decode_error hc]
    exact ⟨fun _ => rfl, fun _ => rfl⟩

/-- Settles O1. -/
theorem listedCommandWordsDecode : Obligations.ListedCommandWordsDecode := by
  unfold Obligations.ListedCommandWordsDecode
  decide

/-- Settles O5. -/
theorem operandsAreTheFieldsOfTheWord : Obligations.OperandsAreTheFieldsOfTheWord :=
  fun _ => ⟨decode_of_build, decode_of_render, decode_of_enqueue⟩

/-- Settles O46. -/
theorem responseItemsOnThePort : Obligations.ResponseItemsOnThePort :=
  ⟨rfl, fun _ _ => rfl⟩

end Sys2Proof.Machine

namespace Sys2Proof.Machine

/-! SUPPORT. BUILD's answers once more (40_framecodec.md R90 to R96): which error is the first, when it succeeds and
with which word, and that the words it makes are the built ones. -/

section BuildErrors
variable {ext : IdKind} {idIn : BitVec 32} {lenIn : BitVec 8} {payCount : BitVec 4}

theorem buildError_invalidLength (hlen : Config.maxDlc < lenIn.toNat) :
    buildError ext idIn lenIn payCount = some .invalidLength := if_pos hlen

theorem buildError_identifierOutOfRange (hlen : lenIn.toNat ≤ Config.maxDlc) (hid : 2 ^ idWidth ext ≤ idIn.toNat) :
    buildError ext idIn lenIn payCount = some .identifierOutOfRange := by
  rw [buildError, if_neg (Nat.not_lt.2 hlen), if_pos hid]

theorem buildError_payloadTooShort (hlen : lenIn.toNat ≤ Config.maxDlc) (hid : idIn.toNat < 2 ^ idWidth ext)
    (hcount : payCount.toNat < lenIn.toNat) :
    buildError ext idIn lenIn payCount = some .payloadTooShort := by
  rw [buildError, if_neg (Nat.not_lt.2 hlen), if_neg (Nat.not_le.2 hid), if_pos hcount]

/-- BUILD answers OK with a word exactly where there is no error and the word is the one it makes. -/
theorem exec_build_ok_iff {payIn : BitVec 64} {s : State} {f : FrameWord} :
    exec (.build ext idIn lenIn payCount payIn) s = .next (s.returnOk [f]) ↔
      buildError ext idIn lenIn payCount = none ∧ f = buildFrame ext idIn lenIn payIn := by
  cases herror : buildError ext idIn lenIn payCount with
  | none =>
    rw [exec_build_of_no_error payIn s herror]
    simp [State.returnOk, State.respond, Response.okBeats, eq_comm]
  | some e =>
    have hne : e ≠ .ok := by obtain rfl | rfl | rfl := buildError_some herror <;> decide
    rw [exec_build_of_error payIn s herror]
    simp [State.raise, State.returnOk, State.respond, Response.okBeats, Response.raised, hne]

end BuildErrors

section BuildFrame
variable (ext : IdKind) (idIn : BitVec 32) (lenIn : BitVec 8) (payIn : BitVec 64)

@[simp] theorem sofField_buildFrame : sofField (buildFrame ext idIn lenIn payIn) = 0#1 := by simp [buildFrame]
@[simp] theorem rtrField_buildFrame : rtrField (buildFrame ext idIn lenIn payIn) = 0#1 := by simp [buildFrame]
@[simp] theorem crcField_buildFrame : crcField (buildFrame ext idIn lenIn payIn) = 0#15 := by simp [buildFrame]
@[simp] theorem ackField_buildFrame : ackField (buildFrame ext idIn lenIn payIn) = 0#2 := by simp [buildFrame]
@[simp] theorem eofField_buildFrame : eofField (buildFrame ext idIn lenIn payIn) = 0x7F#7 := by simp [buildFrame]

end BuildFrame

/-- A legal length is not truncated by the four bits of `dlc` (40_framecodec.md R91). -/
theorem toNat_dlcField_buildFrame {lenIn : BitVec 8} (h : lenIn.toNat ≤ Config.maxDlc) (ext : IdKind)
    (idIn : BitVec 32) (payIn : BitVec 64) : (dlcField (buildFrame ext idIn lenIn payIn)).toNat = lenIn.toNat := by
  rw [dlcField_buildFrame]
  exact toNat_extractLsb_zero (Nat.lt_of_le_of_lt h (by decide))

/-- The low 24 bits of a built word, by the three fields they are (40_framecodec.md R95, R96). -/
theorem low24_eq_iff (w : FrameWord) :
    w.extractLsb 23 0 = 0x00007F#24 ↔ crcField w = 0#15 ∧ ackField w = 0#2 ∧ eofField w = 0x7F#7 := by
  constructor
  · intro h
    have hslice (lo len : Nat) (hle : lo + len ≤ 24) :
        w.extractLsb' lo len = (0x00007F#24).extractLsb' lo len := by
      rw [← h, BitVec.extractLsb, extractLsb'_slice w 0 _ lo len hle, Nat.zero_add]
    exact ⟨hslice 9 15 (by decide), hslice 7 2 (by decide), hslice 0 7 (by decide)⟩
  · rintro ⟨hcrc, hack, heof⟩
    rw [low24_eq, hcrc, hack, heof]
    rfl

/-- The `id` field BUILD makes has its upper 18 bits clear for a Standard identifier (30_encoding.md R64). -/
theorem upper_idBits (ext : IdKind) (idIn : BitVec 32) :
    ext.tag = 1#1 ∨ (idBits ext idIn).extractLsb' 11 18 = 0#18 := by
  cases ext with
  | standard => exact .inr (upper_setWidth_standard _)
  | extended => exact .inl rfl

/-- Every word a successful BUILD makes is built (40_framecodec.md R96). -/
theorem frameBuilt_buildFrame {lenIn : BitVec 8} (h : lenIn.toNat ≤ Config.maxDlc) (ext : IdKind) (idIn : BitVec 32)
    (payIn : BitVec 64) : FrameBuilt (buildFrame ext idIn lenIn payIn) := by
  rw [FrameBuilt, FrameWF, toNat_dlcField_buildFrame h, upperId_eq, low24_eq_iff]
  refine ⟨⟨h, ?_⟩, sofField_buildFrame .., rtrField_buildFrame .., ⟨crcField_buildFrame .., ackField_buildFrame ..,
    eofField_buildFrame ..⟩, fun k hk => ?_⟩
  · rw [ideField_buildFrame, idField_buildFrame]
    exact upper_idBits ext idIn
  · rw [dataField_buildFrame, byteAt_keepBytes, if_neg (Nat.not_lt.2 hk)]

/-- A payload field whose bytes from `n` on are 0x00 already is kept whole. -/
theorem keepBytes_eq_self {n : Nat} {p : BitVec 64} (h : ∀ k : Fin 8, n ≤ k.val → byteAt p k = 0#8) :
    keepBytes n p = p := by
  refine byteAt_ext fun k => ?_
  rw [byteAt_keepBytes]
  split
  · rfl
  · next hk => exact (h k (Nat.not_lt.1 hk)).symm

section OwnFields
variable {f : FrameWord}

theorem toNat_dlcField_setWidth : ((dlcField f).setWidth 8).toNat = (dlcField f).toNat :=
  BitVec.toNat_setWidth_of_le (by decide)

theorem toNat_idField_setWidth : ((idField f).setWidth 32).toNat = (idField f).toNat :=
  BitVec.toNat_setWidth_of_le (by decide)

/-- A Standard identifier of a well-formed word is a number of 11 bits, an Extended one of 29 (30_encoding.md R64). -/
theorem toNat_idField_lt (h : FrameWF f) : (idField f).toNat < 2 ^ idWidth (IdKind.ofTag (ideField f)) := by
  obtain ⟨-, hid⟩ := h
  by_cases hide : ideField f = 1#1
  · rw [IdKind.ofTag, if_pos hide]
    exact (idField f).isLt
  · have hupper := hid.resolve_left hide
    rw [upperId_eq] at hupper
    rw [IdKind.ofTag, if_neg hide, ← setWidth_lower_of_upper hupper, BitVec.toNat_setWidth_of_le (by decide)]
    exact BitVec.isLt _

/-- The operands that are a well-formed word's own fields meet none of BUILD's error conditions. -/
theorem buildError_of_fields (h : FrameWF f) :
    buildError (IdKind.ofTag (ideField f)) ((idField f).setWidth 32) ((dlcField f).setWidth 8) (dlcField f) = none := by
  rw [buildError_none, toNat_dlcField_setWidth, toNat_idField_setWidth]
  exact ⟨h.1, toNat_idField_lt h, Nat.le_refl _⟩

/-- BUILD of a built word's own fields makes that word (40_framecodec.md R96). -/
theorem buildFrame_of_fields (h : FrameBuilt f) :
    buildFrame (IdKind.ofTag (ideField f)) ((idField f).setWidth 32) ((dlcField f).setWidth 8) (dataField f) = f := by
  obtain ⟨hwf, hsof, hrtr, hlow, hbytes⟩ := h
  obtain ⟨hcrc, hack, heof⟩ := (low24_eq_iff f).1 hlow
  have hid : idBits (IdKind.ofTag (ideField f)) ((idField f).setWidth 32) = idField f := by
    refine BitVec.eq_of_toNat_eq ?_
    rw [toNat_idBits (toNat_idField_setWidth.symm ▸ toNat_idField_lt hwf), toNat_idField_setWidth]
  have hdlc : ((dlcField f).setWidth 8).extractLsb 3 0 = dlcField f := by
    refine BitVec.eq_of_toNat_eq ?_
    rw [toNat_extractLsb_zero (toNat_dlcField_setWidth.symm ▸ (dlcField f).isLt), toNat_dlcField_setWidth]
  have hdata : keepBytes ((dlcField f).setWidth 8).toNat (dataField f) = dataField f := by
    rw [toNat_dlcField_setWidth, keepBytes_eq_self hbytes]
  refine Eq.trans ?_ (frameWord_fields f)
  rw [buildFrame, IdKind.tag_ofTag, hid, hdlc, hdata, hsof, hrtr, hcrc, hack, heof]

end OwnFields

/-! SUPPORT. RENDER's answer on a well-formed word, what `rend` keeps and forgets, and the bytes a rendering word shows
(40_framecodec.md R97 to R99). -/

theorem exec_render_of_frameWF {w : FrameWord} (h : FrameWF w) (s : State) :
    exec (.render w) s = .next (s.returnOk [rend w]) := by
  rw [exec, execRender, renderResponse, if_pos h]
  rfl

/-- A rendering differs from its word at most where nothing is shown. -/
theorem sameShown_rend (w : FrameWord) : SameShown (rend w) w := by
  refine ⟨sofField_rend w, ideField_rend w, idField_rend w, dlcField_rend w, fun k hk => ?_, crcField_rend w,
    ackField_rend w, eofField_rend w⟩
  rw [dlcField_rend] at hk
  rw [dataField_rend, byteAt_keepBytes, if_pos hk]

theorem rend_of_frameBuilt {w : FrameWord} (h : FrameBuilt w) : rend w = w := by
  obtain ⟨-, -, hrtr, -, hbytes⟩ := h
  rw [rend, keepBytes_eq_self hbytes, ← hrtr, frameWord_fields]

theorem SameShown.symm {w v : FrameWord} (h : SameShown w v) : SameShown v w := by
  obtain ⟨hsof, hide, hid, hdlc, hbytes, hcrc, hack, heof⟩ := h
  exact ⟨hsof.symm, hide.symm, hid.symm, hdlc.symm, fun k hk => (hbytes k (by rwa [hdlc])).symm, hcrc.symm,
    hack.symm, heof.symm⟩

theorem SameShown.trans {u v w : FrameWord} (h : SameShown u v) (h' : SameShown v w) : SameShown u w := by
  obtain ⟨hsof, hide, hid, hdlc, hbytes, hcrc, hack, heof⟩ := h
  obtain ⟨hsof', hide', hid', hdlc', hbytes', hcrc', hack', heof'⟩ := h'
  exact ⟨hsof.trans hsof', hide.trans hide', hid.trans hid', hdlc.trans hdlc',
    fun k hk => (hbytes k hk).trans (hbytes' k (by rwa [← hdlc])), hcrc.trans hcrc', hack.trans hack',
    heof.trans heof'⟩

/-- Words with one rendering are those that differ at most where nothing is shown (40_framecodec.md R99, clause 5):
each looks like the common rendering. -/
theorem rend_eq_rend_iff {w v : FrameWord} : rend w = rend v ↔ SameShown w v := by
  refine ⟨fun h => (sameShown_rend w).symm.trans ?_, SameShown.rend⟩
  rw [h]
  exact sameShown_rend v

/-- Of the numbers below `m` in order, those below `n` are the first `n`. -/
theorem filter_lt_finRange (m n : Nat) :
    (List.finRange m).filter (fun k => decide (k.val < n)) = (List.finRange m).take n := by
  conv_lhs => rw [← List.take_append_drop n (List.finRange m)]
  have hfirst : ∀ k ∈ (List.finRange m).take n, decide (k.val < n) = true := by
    intro k hk
    obtain ⟨i, hi, rfl⟩ := List.mem_take_iff_getElem.1 hk
    simpa using (by omega : i < n)
  have hrest : ∀ k ∈ (List.finRange m).drop n, ¬ decide (k.val < n) = true := by
    intro k hk
    obtain ⟨i, hi, rfl⟩ := List.mem_drop_iff_getElem.1 hk
    simp
  rw [List.filter_append, List.filter_eq_self.2 hfirst, List.filter_eq_nil_iff.2 hrest, List.append_nil]

theorem shownBytes_eq (r : FrameWord) :
    shownBytes r = ((List.finRange 8).take (dlcField r).toNat).map (byteAt (dataField r)) := by
  rw [shownBytes, filter_lt_finRange]

theorem length_shownBytes {r : FrameWord} (h : (dlcField r).toNat ≤ 8) :
    (shownBytes r).length = (dlcField r).toNat := by
  rw [shownBytes_eq, List.length_map, List.length_take, List.length_finRange, Nat.min_eq_left h]

theorem getElem?_shownBytes {r : FrameWord} {k : Fin 8} (h : k.val < (dlcField r).toNat) :
    (shownBytes r)[k.val]? = some (byteAt (dataField r) k) := by
  rw [shownBytes_eq, List.getElem?_map, List.getElem?_take_of_lt h]
  simp

/-! The statements of the family 40_framecodec.md, settled. -/

/-- Settles O16: the fields of the word made, none of the operands truncated. -/
theorem buildReturnsTheRequestedFrame : Obligations.BuildReturnsTheRequestedFrame := by
  intro ext idIn lenIn payCount payIn s hlen hid hcount
  rw [← idWidth_eq] at hid
  refine ⟨_, exec_build_ok_iff.2 ⟨buildError_none.2 ⟨hlen, hid, hcount⟩, rfl⟩, sofField_buildFrame ..,
    (ideField_buildFrame ..).trans (tag_eq ext), ?_, rtrField_buildFrame .., toNat_dlcField_buildFrame hlen ..,
    fun k => ?_, crcField_buildFrame .., ackField_buildFrame .., eofField_buildFrame ..⟩
  · exact (congrArg BitVec.toNat (idField_buildFrame ..)).trans (toNat_idBits hid)
  · rw [← byteAt_dataField, dataField_buildFrame, byteAt_keepBytes, byteAt]

/-- Settles O18: the word made is built, and a built word is made from its own fields. -/
theorem builtWordsAreExactlyWhatBuildReturns : Obligations.BuiltWordsAreExactlyWhatBuildReturns := by
  refine ⟨fun ext idIn lenIn payCount payIn s f hok => ?_, fun f s hbuilt => ?_⟩
  · obtain ⟨hnone, rfl⟩ := exec_build_ok_iff.1 hok
    obtain ⟨hlen, -, -⟩ := buildError_none.1 hnone
    exact ⟨frameBuilt_buildFrame hlen .., toNat_dlcField_buildFrame hlen ..⟩
  · exact exec_build_ok_iff.2 ⟨buildError_of_fields hbuilt.1, (buildFrame_of_fields hbuilt).symm⟩

/-- Settles O21: the fields of the rendering word. -/
theorem renderReturnsTheRenderingWord : Obligations.RenderReturnsTheRenderingWord := by
  intro w s hwf
  refine ⟨_, exec_render_of_frameWF hwf s, sofField_rend w, ideField_rend w, idField_rend w, rtrField_rend w,
    dlcField_rend w, fun k => ?_, crcField_rend w, ackField_rend w, eofField_rend w⟩
  rw [← byteAt_dataField, dataField_rend, byteAt_keepBytes, byteAt_dataField, dlcField]

/-- Settles O22: a rendering looks like its word, and words that look alike have one rendering. -/
theorem renderingForgetsExactlyTheHiddenBits : Obligations.RenderingForgetsExactlyTheHiddenBits :=
  fun w _ _ _ => ⟨(sameShown_rend w).rend, rend_of_frameBuilt, rend_eq_rend_iff⟩

/-- Settles O23: what BUILD returns is built, so its rendering is the word itself. -/
theorem buildThenRenderRoundTrip : Obligations.BuildThenRenderRoundTrip := by
  intro ext idIn lenIn payCount payIn s f hok
  obtain ⟨hnone, rfl⟩ := exec_build_ok_iff.1 hok
  obtain ⟨hlen, hid, -⟩ := buildError_none.1 hnone
  have hbuilt := frameBuilt_buildFrame hlen ext idIn payIn
  have hrender := exec_render_of_frameWF hbuilt.1 s
  rw [rend_of_frameBuilt hbuilt] at hrender
  exact ⟨hrender, (ideField_buildFrame ..).trans (tag_eq ext),
    (congrArg BitVec.toNat (idField_buildFrame ..)).trans (toNat_idBits hid), toNat_dlcField_buildFrame hlen ..⟩

/-- Settles O24: the rendering has the word's `dlc`, and the bytes below it are the word's. -/
theorem renderedByteCountIsDataLength : Obligations.RenderedByteCountIsDataLength := by
  intro w ⟨hdlc, _⟩
  obtain ⟨-, -, -, hsame, hbytes, -⟩ := sameShown_rend w
  rw [← hsame] at hdlc ⊢
  refine ⟨length_shownBytes hdlc, fun k hk => ?_⟩
  rw [getElem?_shownBytes hk, hbytes k hk]

/-- Settles O17: each condition is tested only where the ones before it do not hold. -/
theorem buildReportsItsFirstError : Obligations.BuildReportsItsFirstError := by
  intro ext idIn lenIn payCount payIn s
  rw [← idWidth_eq]
  exact ⟨fun hlen => exec_build_of_error payIn s (buildError_invalidLength hlen),
    fun hlen hid => exec_build_of_error payIn s (buildError_identifierOutOfRange hlen hid),
    fun hlen hid hcount => exec_build_of_error payIn s (buildError_payloadTooShort hlen hid hcount)⟩

end Sys2Proof.Machine

namespace Sys2Proof.Machine

/-! SUPPORT. The list view's function on the BusQueue commands (41_busqueue.md R110), and its runs (00_scope.md R11). -/

section ListStep
variable {cfg : Config} {q : List FrameWord} {w : FrameWord}

theorem listStep_enqueue_room (hw : FrameWF w) (hroom : q.length < cfg.cap) :
    listStep cfg q (encode (.enqueue w)) = (q ++ [w], .okBeats []) := by
  rw [listStep_of_decode_ok (decode_encode _), listExec, if_pos hw, if_pos hroom]

theorem listStep_enqueue_full (hw : FrameWF w) (hfull : q.length = cfg.cap) :
    listStep cfg q (encode (.enqueue w)) = (q, .raised .busFull) := by
  rw [listStep_of_decode_ok (decode_encode _), listExec, if_pos hw, if_neg (Nat.not_lt.2 hfull.ge)]

theorem listStep_drain (cfg : Config) (q : List FrameWord) :
    listStep cfg q (encode .drain) = (q, .okBeats (q.map rend)) :=
  listStep_of_decode_ok (decode_encode _) cfg q

/-- Nothing but CREATE changes a full queue (41_busqueue.md R119). -/
theorem listStep_full_queue {c : CommandWord} (hfull : q.length = cfg.cap) (hcreate : decode c ≠ .ok .create) :
    (listStep cfg q c).1 = q := by
  cases hc : decode c with
  | error e => rw [listStep_of_decode_error hc]
  | ok i =>
    rw [listStep_of_decode_ok hc]
    cases i with
    | build ext idIn lenIn payCount payIn => rfl
    | render v => rfl
    | create => exact absurd hc hcreate
    | enqueue v =>
      rw [listExec, if_neg (Nat.not_lt.2 hfull.ge)]
      split <;> rfl
    | drain => rfl

end ListStep

/-- A run on two lists of commands, one after the other. -/
theorem listRun_append (cfg : Config) (q : List FrameWord) (cs ds : List CommandWord) :
    listRun cfg q (cs ++ ds) =
      ((listRun cfg (listRun cfg q cs).1 ds).1, (listRun cfg q cs).2 ++ (listRun cfg (listRun cfg q cs).1 ds).2) := by
  induction cs generalizing q with
  | nil => rfl
  | cons c cs ih => simp only [List.cons_append, listRun, ih]

/-- ENQUEUEs of well-formed words with room for all of them append them in order (41_busqueue.md R118, R119). -/
theorem listRun_enqueues {cfg : Config} {q ws : List FrameWord} (hws : ∀ w ∈ ws, FrameWF w)
    (hroom : q.length + ws.length ≤ cfg.cap) :
    listRun cfg q (ws.map fun w => encode (.enqueue w)) = (q ++ ws, List.replicate ws.length (.okBeats [])) := by
  induction ws generalizing q with
  | nil => rw [List.append_nil]; rfl
  | cons w ws ih =>
    obtain ⟨hw, hlater⟩ := List.forall_mem_cons.1 hws
    rw [List.length_cons] at hroom
    have hstep := listStep_enqueue_room (cfg := cfg) (q := q) hw (by omega)
    have hrest := ih (q := q ++ [w]) hlater (by rw [List.length_append, List.length_singleton]; omega)
    simp only [List.map_cons, listRun, hstep, hrest, List.append_assoc, List.singleton_append, List.length_cons,
      List.replicate_succ]

/-- A run of commands none of which changes the queue: each response is that of its command alone. -/
theorem listRun_of_unchanged {cfg : Config} {q : List FrameWord} {cs : List CommandWord}
    (h : ∀ c ∈ cs, (listStep cfg q c).1 = q) : listRun cfg q cs = (q, cs.map fun c => (listStep cfg q c).2) := by
  induction cs with
  | nil => rfl
  | cons c cs ih =>
    obtain ⟨hc, hlater⟩ := List.forall_mem_cons.1 h
    simp only [listRun, hc, ih hlater, List.map_cons]

/-- ENQUEUEs that just fill the queue, then any commands but CREATE: the queue keeps the words enqueued, and each
response after them is that of its command on the full queue (41_busqueue.md R119). -/
theorem listRun_fill {cfg : Config} {q ws : List FrameWord} {cs : List CommandWord} (hws : ∀ w ∈ ws, FrameWF w)
    (hfill : q.length + ws.length = cfg.cap) (hcs : ∀ c ∈ cs, decode c ≠ .ok .create) :
    listRun cfg q ((ws.map fun w => encode (.enqueue w)) ++ cs) =
      (q ++ ws, List.replicate ws.length (.okBeats []) ++ cs.map fun c => (listStep cfg (q ++ ws) c).2) := by
  have hfull : (q ++ ws).length = cfg.cap := List.length_append.trans hfill
  rw [listRun_append, listRun_enqueues hws hfill.le,
    listRun_of_unchanged fun c hc => listStep_full_queue hfull (hcs c hc)]

/-! SUPPORT. A run of the block on command words, in a state that meets the invariant. -/

/-- ENQUEUEs and then other command words, as one list of command words the host presents. -/
theorem enqueues_then_commands (ws : List FrameWord) (cs : List CommandWord) :
    ws.map (fun w => HostInput.command (encode (.enqueue w))) ++ cs.map HostInput.command =
      ((ws.map fun w => encode (.enqueue w)) ++ cs).map HostInput.command := by
  rw [List.map_append, List.map_map]
  rfl

/-- A run on command words: the queue, `count` and the responses are those of the list view's run. -/
theorem run_commands {s : State} {cs : List CommandWord} (h : s.Inv) (hin : s.hostIn = cs.map HostInput.command) :
    ∃ t, Sys2Proof.core.run cs.length s = .next t ∧ t.queue = (listRun s.config s.queue cs).1 ∧
      t.count = (listRun s.config s.queue cs).1.length ∧
      t.delivered = s.delivered ++ (listRun s.config s.queue cs).2.map Delivery.completed := by
  obtain ⟨t, hrun, -, hqueue, hdelivered⟩ := runIsTheFoldOfTheCommands s cs h hin
  obtain ⟨u, hu, hinv⟩ := run_total h cs.length
  obtain rfl : t = u := Host.Outcome.next.inj (hrun.symm.trans hu)
  exact ⟨t, hrun, hqueue, by rw [← hqueue, (drainFrom_queue hinv).2], hdelivered⟩

/-! SUPPORT. `count` and the status outputs under the BusQueue commands and under every step (41_busqueue.md R112 to
R115). -/

theorem qEmpty_eq_zero_iff {s : State} : qEmpty s = 0#1 ↔ s.count ≠ 0 := by simp [qEmpty_eq]

/-- The status outputs of an empty queue (10_state.md R30). -/
theorem outputs_of_count_zero {s : State} (h : s.count = 0) :
    (qCount s).toNat = 0 ∧ qEmpty s = 1#1 ∧ (1 ≤ s.config.cap → qFull s = 0#1) := by
  refine ⟨?_, by rw [qEmpty_eq, if_pos h], fun hcap => qFull_eq_zero_iff.2 (by omega)⟩
  rw [toNat_qCount (by rw [h]; exact Nat.two_pow_pos _), h]

theorem exec_enqueue_full {w : FrameWord} {s : State} (hw : FrameWF w) (hfull : s.count = s.config.cap) :
    exec (.enqueue w) s = .next (s.raise .busFull) := (execEnqueue_eq_busFull_iff hw).2 hfull

/-- A command word but CREATE leaves `count` as it is or, ENQUEUE's, raises it. -/
theorem runCommand_count_le {c : CommandWord} {s t : State} (h : runCommand c s = .next t)
    (hcreate : decode c ≠ .ok .create) : s.count ≤ t.count := by
  obtain ⟨r, rfl⟩ | ⟨hc, -⟩ | ⟨w, -, -, -, rfl⟩ := runCommand_changes h
  · exact Nat.le_refl s.count
  · exact absurd hc hcreate
  · exact Nat.le_succ s.count

/-! The statements of the family 41_busqueue.md, settled. -/

/-- Settles O34: one arm of the list view's function for each command, and its answer to a word that is none. -/
theorem stepRefinesTheListView : Obligations.StepRefinesTheListView := by
  intro s c rest h hin
  obtain ⟨t, ht, hqueue, hdelivered, hhost⟩ := step_command_refines h hin
  exact ⟨t, ht, hhost, hqueue, hdelivered⟩

/-- Settles O36: the run is that of the list view, which the first ENQUEUEs fill. -/
theorem capacityProperty : Obligations.CapacityProperty := by
  intro s ws cs h hempty hlen hws hcs hin
  have hfill := listRun_fill (q := []) hws ((Nat.zero_add _).trans hlen) hcs
  rw [List.nil_append] at hfill
  obtain ⟨t, hrun, hqueue, hcount, hdelivered⟩ := run_commands h (hin.trans (enqueues_then_commands ws cs))
  rw [State.queue_of_count_zero hempty, hfill] at hqueue hcount hdelivered
  rw [List.length_append, List.length_map, hlen] at hrun
  rw [hlen, List.map_append, List.map_replicate, ← List.append_assoc] at hdelivered
  refine ⟨t, _, hrun, hqueue, hcount.trans hlen, List.length_map _, hdelivered, fun k v hk hv => ?_⟩
  rw [List.getElem?_map, hk, Option.map_some, listStep_enqueue_full hv hlen]
  rfl

/-- Settles O29. -/
theorem enqueueStoresTheFrame : Obligations.EnqueueStoresTheFrame :=
  fun w s hw hroom =>
    ⟨_, execEnqueue_room hw hroom, rfl, State.readSlot_appended_self hroom w,
      fun _ ha => State.readSlot_appended_ne (s := s) ha w, rfl, rfl, qEmpty_eq_zero_iff.2 (Nat.succ_ne_zero _),
      qFull_eq_one_iff⟩

/-- Settles O31: the loop answers under the invariant, and each of its beats is the rendering of the slot read. -/
theorem drainReturnsTheRenderings : Obligations.DrainReturnsTheRenderings := by
  intro s h
  obtain ⟨hdrain, -⟩ := drainFrom_queue h
  obtain ⟨hlen, hbeats⟩ := drainFrom_ok hdrain
  refine ⟨_, exec_drain_of_drainFrom hdrain, hlen, fun i hi => ?_⟩
  obtain ⟨w, hread, -, hbeat⟩ := hbeats i hi
  rw [Nat.zero_add] at hread
  exact ⟨w, hread, hbeat⟩

/-- Settles O33: the ENQUEUEs append their words to the list view, and both DRAINs render it word by word. -/
theorem drainAfterEnqueuesShowsThemLast : Obligations.DrainAfterEnqueuesShowsThemLast := by
  intro s ws h hws hroom hin
  obtain ⟨hdrain, hlen⟩ := drainFrom_queue h
  rw [← hlen] at hroom
  obtain ⟨t, hrun, -, -, hdelivered⟩ := run_commands h (hin.trans (enqueues_then_commands ws [encode .drain]))
  rw [List.length_append, List.length_map] at hrun
  refine ⟨_, t, exec_drain_of_drainFrom hdrain, hrun, ?_⟩
  rw [hdelivered, listRun_append, listRun_enqueues hws hroom]
  simp only [listRun, listStep_drain, List.map_append, List.map_replicate, List.append_assoc]
  rfl

/-- Settles O40. -/
theorem onlyCreateAndResetLowerCount : Obligations.OnlyCreateAndResetLowerCount := by
  intro s t h hlower
  obtain ⟨-, rfl⟩ | ⟨c, rest, hin, hc⟩ | ⟨rest, hin, -⟩ | ⟨c, n, rest, -, hin, -⟩ := step_next h
  · exact absurd hlower (Nat.lt_irrefl _)
  · refine .inr (.inr ⟨c, rest, hin, ?_⟩)
    by_contra hcreate
    exact Nat.not_lt.2 (runCommand_count_le hc hcreate) hlower
  · exact .inl ⟨rest, hin⟩
  · exact .inr (.inl ⟨c, n, rest, hin⟩)

/-- Settles O27. -/
theorem createEmptiesTheQueue : Obligations.CreateEmptiesTheQueue := by
  intro s
  obtain ⟨hcount, hemptyOut, hfullOut⟩ := outputs_of_count_zero (s := s.clearCount.returnOk []) rfl
  exact ⟨s.clearCount.returnOk [], rfl, rfl, hcount, hemptyOut, hfullOut, exec_drain_of_drainFrom rfl⟩

/-- Settles O30. -/
theorem enqueueOnAFullQueueIsBusFull : Obligations.EnqueueOnAFullQueueIsBusFull :=
  fun _ _ s hw hv hfull =>
    ⟨s.raise .busFull, exec_enqueue_full hw hfull, rfl, exec_enqueue_full (s := s.raise .busFull) hv hfull⟩

end Sys2Proof.Machine

namespace Sys2Proof.Machine

/-! SUPPORT. With which statuses a command word can end, by its opcode, and what it then does (60_exceptions.md R139,
R140). -/

/-- The two ways a command word of the opcode ends: a status of its row of the table of 60_exceptions.md R139 is raised,
or the row has `OK` and that is the response. -/
abbrev EndsByTable (op : BitVec 4) (s t : State) : Prop :=
  (∃ e ∈ statusesOf op, t = s.raise e) ∨
    Status.ok ∈ statusesOf op ∧ ∃ beats, t.delivered = s.delivered ++ [.completed (.okBeats beats)]

theorem opcodeOf_encode_build (ext : IdKind) (idIn : BitVec 32) (lenIn : BitVec 8) (payCount : BitVec 4)
    (payIn : BitVec 64) : opcodeOf (encode (.build ext idIn lenIn payCount payIn)) = 1#4 :=
  (fields_encode_build ext idIn lenIn payCount payIn).1

theorem exec_endsByTable {i : Instr} {s t : State} (h : exec i s = .next t) :
    EndsByTable (opcodeOf (encode i)) s t := by
  cases i with
  | build ext idIn lenIn payCount payIn =>
    rw [opcodeOf_encode_build]
    cases herror : buildError ext idIn lenIn payCount with
    | some e =>
      cases (exec_build_of_error payIn s herror).symm.trans h
      have hmem : e ∈ statusesOf 1#4 := by obtain rfl | rfl | rfl := buildError_some herror <;> decide
      exact .inl ⟨e, hmem, rfl⟩
    | none =>
      cases (exec_build_of_no_error payIn s herror).symm.trans h
      exact .inr ⟨by decide, _, rfl⟩
  | render w =>
    rw [encode, opcodeOf_append]
    by_cases hw : FrameWF w
    · cases (exec_render_of_frameWF hw s).symm.trans h
      exact .inr ⟨by decide, _, rfl⟩
    · cases (exec_render_malformed hw s).symm.trans h
      exact .inl ⟨_, by decide, rfl⟩
  | create =>
    cases h
    exact .inr ⟨by decide, _, rfl⟩
  | enqueue w =>
    rw [encode, opcodeOf_append]
    obtain ⟨-, rfl⟩ | ⟨-, -, rfl⟩ | ⟨-, -, rfl⟩ := execEnqueue_next h
    · exact .inl ⟨_, by decide, rfl⟩
    · exact .inl ⟨_, by decide, rfl⟩
    · exact .inr ⟨by decide, _, rfl⟩
  | drain =>
    obtain ⟨beats, -, rfl⟩ := execDrain_next h
    exact .inr ⟨by decide, beats, rfl⟩

/-- RENDER and ENQUEUE take any operand (30_encoding.md R79), and no other opcode does. -/
theorem illegalCommand_mem_statusesOf_iff (op : BitVec 4) :
    Status.illegalCommand ∈ statusesOf op ↔ op ≠ 2#4 ∧ op ≠ 4#4 := by
  revert op; decide

theorem runCommand_endsByTable {c : CommandWord} {s t : State} (h : runCommand c s = .next t) :
    EndsByTable (opcodeOf c) s t := by
  obtain ⟨i, hi, ht⟩ | ⟨e, he, rfl⟩ := runCommand_next h
  · rw [← encode_of_decode hi]
    exact exec_endsByTable ht
  · have hrender : opcodeOf c ≠ 2#4 := fun hop => by cases he.symm.trans (decode_of_render hop)
    have henqueue : opcodeOf c ≠ 4#4 := fun hop => by cases he.symm.trans (decode_of_enqueue hop)
    exact .inl ⟨_, (illegalCommand_mem_statusesOf_iff _).2 ⟨hrender, henqueue⟩, rfl⟩

/-- The response to a command word has a status of the word's row, and without success the step is a `raise` of it. -/
theorem step_command_ends {s t : State} {c : CommandWord} {rest : List HostInput} {r : Response}
    (hin : s.hostIn = .command c :: rest) (hstep : step s = .next t)
    (hr : t.delivered = s.delivered ++ [.completed r]) :
    r.status ∈ statusesOf (opcodeOf c) ∧ (r.status ≠ .ok → t = (s.withHostIn rest).raise r.status) := by
  obtain ⟨e, he, rfl⟩ | ⟨hok, beats, hbeats⟩ := runCommand_endsByTable ((step_of_command hin).symm.trans hstep)
  · obtain rfl : Response.raised e = r := by simpa using hr
    exact ⟨he, fun _ => rfl⟩
  · obtain rfl : r = .okBeats beats := by simpa using hr.symm.trans hbeats
    exact ⟨hok, fun hne => absurd rfl hne⟩

/-! SUPPORT. Every entry of the table of 60_exceptions.md R139 occurs: a command word and a state for each. -/

/-- Some command word with the opcode ends with the status in some state that meets the invariant. -/
def EndsWith (op : BitVec 4) (e : Status) : Prop :=
  ∃ (s t : State) (c : CommandWord) (rest : List HostInput) (beats : List FrameWord),
    s.Inv ∧ s.hostIn = .command c :: rest ∧ opcodeOf c = op ∧ step s = .next t ∧
      t.delivered = s.delivered ++ [.completed ⟨e, beats⟩]

/-- Under the invariant a command word ends with the status of its response on the list view. -/
theorem endsWith_of_listStep {s : State} {c : CommandWord} {e : Status} (h : s.Inv)
    (he : (listStep s.config s.queue c).2.status = e) : EndsWith (opcodeOf c) e := by
  obtain ⟨t, ht, -, hdelivered, -⟩ := step_command_refines (h.withHostIn [.command c]) rfl
  subst he
  exact ⟨_, t, c, [], _, h.withHostIn _, rfl, rfl, ht, hdelivered⟩

/-- What a command ends with on the empty queue of this hardware. -/
theorem endsWith_of_listExec_nil (i : Instr) {e : Status} (he : (listExec Config.hardware i []).2.status = e) :
    EndsWith (opcodeOf (encode i)) e :=
  endsWith_of_listStep resetStateMeetsTheInvariant.1
    (by rw [listStep_of_decode_ok (decode_encode i)]; exact he)

/-- `BusFull` on the queue of capacity 1 that holds one frame. -/
theorem endsWith_busFull : EndsWith 4#4 .busFull :=
  endsWith_of_listStep (c := encode (.enqueue 0))
    ((State.resetOf_inv (cfg := ⟨1⟩) (by decide)).appended (w := 0) (by decide) (by decide))
    (by rw [listStep_enqueue_full (by decide) (by decide)]; rfl)

/-- An operand with bit 0 set makes no command but RENDER and ENQUEUE (30_encoding.md R79). -/
theorem illegalWord_of_opcode {op : BitVec 4} (hrender : op ≠ 2#4) (henqueue : op ≠ 4#4) :
    IllegalWord (op ++ 1#124) := by
  revert op; decide

theorem endsWith_illegalCommand {op : BitVec 4} (hrender : op ≠ 2#4) (henqueue : op ≠ 4#4) :
    EndsWith op .illegalCommand := by
  obtain ⟨hlegal, -⟩ | ⟨-, e, he⟩ := decode_cases (op ++ 1#124)
  · exact absurd (illegalWord_of_opcode hrender henqueue) hlegal
  · rw [← opcodeOf_append op 1#124]
    exact endsWith_of_listStep resetStateMeetsTheInvariant.1 (by rw [listStep_of_decode_error he]; rfl)

/-- Every entry of the table of 60_exceptions.md R139, opcode by opcode: the operand 0 is a well-formed word, and one
with all bits set is not. -/
theorem endsWith_of_mem {op : BitVec 4} : ∀ e ∈ statusesOf op, EndsWith op e := by
  obtain rfl | rfl | rfl | rfl | rfl | ⟨-, hbuild, hrender, hcreate, henqueue, hdrain⟩ := opcode_cases op
  · exact List.forall_mem_cons.2 ⟨endsWith_of_listExec_nil (.build .standard 0 0 0 0) (by decide),
      List.forall_mem_cons.2 ⟨endsWith_of_listExec_nil (.build .standard 0 9 0 0) (by decide),
      List.forall_mem_cons.2 ⟨endsWith_of_listExec_nil (.build .standard 0x800 0 0 0) (by decide),
      List.forall_mem_cons.2 ⟨endsWith_of_listExec_nil (.build .standard 0 1 0 0) (by decide),
      List.forall_mem_singleton.2 (endsWith_illegalCommand (by decide) (by decide))⟩⟩⟩⟩
  · exact List.forall_mem_cons.2 ⟨endsWith_of_listExec_nil (.render 0) (by decide),
      List.forall_mem_singleton.2 (endsWith_of_listExec_nil (.render (BitVec.allOnes 124)) (by decide))⟩
  · exact List.forall_mem_cons.2 ⟨endsWith_of_listExec_nil .create (by decide),
      List.forall_mem_singleton.2 (endsWith_illegalCommand (by decide) (by decide))⟩
  · exact List.forall_mem_cons.2 ⟨endsWith_of_listExec_nil (.enqueue 0) (by decide),
      List.forall_mem_cons.2 ⟨endsWith_busFull,
      List.forall_mem_singleton.2 (endsWith_of_listExec_nil (.enqueue (BitVec.allOnes 124)) (by decide))⟩⟩
  · exact List.forall_mem_cons.2 ⟨endsWith_of_listExec_nil .drain (by decide),
      List.forall_mem_singleton.2 (endsWith_illegalCommand (by decide) (by decide))⟩
  · rw [statusesOf, if_neg hbuild, if_neg hrender, if_neg hcreate, if_neg henqueue, if_neg hdrain]
    exact List.forall_mem_singleton.2 (endsWith_illegalCommand hrender henqueue)

/-! The statements of the family 60_exceptions.md, settled. -/

/-- Settles O43: a response has its status in the table, and each entry of the table has a command word and a state. -/
theorem statusesByOpcode : Obligations.StatusesByOpcode := by
  refine fun op e => ⟨?_, endsWith_of_mem e⟩
  rintro ⟨s, t, c, rest, beats, -, hin, rfl, hstep, hdelivered⟩
  exact (step_command_ends hin hstep hdelivered).1

/-- Settles O44: a status but `OK` comes from `raise`. -/
theorem errorsChangeNothing : Obligations.ErrorsChangeNothing :=
  fun _ _ _ _ _ hin hstep hr hne => (step_command_ends hin hstep hr).2 hne

end Sys2Proof.Machine

namespace Sys2Proof.Machine

/-! SUPPORT. The step that takes a CREATE (41_busqueue.md R112), and the state a reset leaves when it comes during a
command that answers as the list view does (70_reset_and_hazards.md R152). -/

theorem step_of_create {s : State} {rest : List HostInput} (hin : s.hostIn = .command (encode .create) :: rest) :
    step s = .next ((s.withHostIn rest).clearCount.returnOk []) :=
  (step_of_command hin).trans (runCommand_of_decode_ok (decode_encode .create) _)

theorem Answers.abandon {s t : State} {a : List FrameWord × Response} (h : Answers s t a) (n : Nat) :
    s.abandon t n = { State.resetOf s.config with
      hostIn := s.hostIn, delivered := s.delivered ++ [.abandoned (a.2.beats.take n)] } := by
  rw [State.abandon, h.lastBeats]
  rfl

/-! The statements of the family 70_reset_and_hazards.md, settled. -/

/-- Settles O15: under the invariant the command gives a next state and answers as the list view does, and of that
answer the reset keeps only the beats that have passed. -/
theorem resetDuringACommandAbandonsIt : Obligations.ResetDuringACommandAbandonsIt := by
  intro s c n rest hinv hin
  obtain ⟨t, ht, hanswers⟩ := runCommand_refines (hinv.withHostIn rest) c
  exact (step_of_resetDuring hin ht).trans (congrArg Host.Outcome.next (hanswers.abandon n))

/-- Settles O28: both leave `count` 0, so the list view is empty after either, though only the reset discards the
slots. -/
theorem resetAndCreateHaveTheSameEffect : Obligations.ResetAndCreateHaveTheSameEffect := fun _ _ =>
  ⟨_, _, step_of_reset rfl, step_of_create rfl, rfl, rfl,
    (State.queue_of_count_zero rfl).trans (State.queue_of_count_zero rfl).symm, rfl, rfl⟩

end Sys2Proof.Machine

namespace Sys2Proof.Machine

/-! The statements of the family 'other', settled. -/

/-- Settles O42, by what the command changed: a response alone leaves everything else as it is, CREATE clears `count`
and no slot, and ENQUEUE's append writes `slot[count]` alone. -/
theorem commandsLeaveTheRestUnchanged : Obligations.CommandsLeaveTheRestUnchanged := by
  intro i s t h
  obtain ⟨r, rfl⟩ | ⟨rfl, rfl⟩ | ⟨w, rfl, -, -, rfl⟩ := exec_next h
  · refine ⟨rfl, rfl, ⟨r, rfl⟩, ?_⟩
    cases i with
    | create => exact fun _ => rfl
    | enqueue _ => exact fun _ _ => rfl
    | build | render | drain => exact ⟨rfl, fun _ => rfl⟩
  · exact ⟨rfl, rfl, ⟨_, rfl⟩, fun _ => rfl⟩
  · exact ⟨rfl, rfl, ⟨_, rfl⟩, fun _ ha => State.readSlot_appended_ne (s := s) ha w⟩

/-- Settles O13. -/
theorem stepWithNothingPresentedWaits : Obligations.StepWithNothingPresentedWaits := fun _ => step_of_nil

/-- Settles O14: `takeReset` keeps the inputs left to take and what has been delivered. -/
theorem resetInputGivesTheResetState : Obligations.ResetInputGivesTheResetState := fun _ _ => step_of_reset

end Sys2Proof.Machine
